-- ==== Sys2Proof/Word.lean ====
section
/-! DEFINITION. The machine's word and character types (spec/00_scope.md R8, spec/10_state.md R50). -/

namespace Sys2Proof

/-- A register, a memory word or an address: 16 bits, unsigned (R8, R10). -/
abbrev Word := BitVec 16

/-- A console character or an image byte: 8 bits (R50, R345). -/
abbrev Byte := BitVec 8

end Sys2Proof
end

