-- ==== Sys2Proof/Syntax.lean ====
section
/-! DEFINITION. The instructions: one constructor per row of spec/opcode_table.json (spec/30_encoding.md R120, R128). -/

namespace Sys2Proof

/-- The eight general registers (spec/10_state.md R31); R7 is the link register (R32). -/
inductive Reg where
  | r0 | r1 | r2 | r3 | r4 | r5 | r6 | r7
deriving DecidableEq, Repr

/-- One instruction as R128 decodes it: registers by name, immediates and offsets already widened to 16 bits
(R122 to R124), the trap vector as 8 bits (R125), and for RTI and RES the twelve bits below the opcode, which have no
effect but are recorded in ABORT_INFO (R250, R251). -/
inductive Instr where
  /-- ADD DR, SR1, SR2 (R150) -/
  | add (dr sr1 sr2 : Reg)
  /-- ADD DR, SR1, #imm5 (R151) -/
  | addi (dr sr1 : Reg) (imm5 : Word)
  /-- AND DR, SR1, SR2 (R152) -/
  | and (dr sr1 sr2 : Reg)
  /-- AND DR, SR1, #imm5 (R153) -/
  | andi (dr sr1 : Reg) (imm5 : Word)
  /-- NOT DR, SR (R154) -/
  | not (dr sr : Reg)
  /-- BR[n][z][p] label (R170) -/
  | br (n z p : Bool) (offset9 : Word)
  /-- JMP BaseR, and RET where BaseR is R7 (R172, R173) -/
  | jmp (base : Reg)
  /-- JSR label (R174) -/
  | jsr (offset11 : Word)
  /-- JSRR BaseR (R175) -/
  | jsrr (base : Reg)
  /-- LD DR, label (R190) -/
  | ld (dr : Reg) (offset9 : Word)
  /-- LDI DR, label (R191) -/
  | ldi (dr : Reg) (offset9 : Word)
  /-- LDR DR, BaseR, #offset6 (R192) -/
  | ldr (dr base : Reg) (offset6 : Word)
  /-- LEA DR, label (R193) -/
  | lea (dr : Reg) (offset9 : Word)
  /-- ST SR, label (R194) -/
  | st (sr : Reg) (offset9 : Word)
  /-- STI SR, label (R195) -/
  | sti (sr : Reg) (offset9 : Word)
  /-- STR SR, BaseR, #offset6 (R196) -/
  | str (sr base : Reg) (offset6 : Word)
  /-- TRAP x<vect8> (R220) -/
  | trap (vect8 : Byte)
  /-- RTI (R250); low is instr[11:0] -/
  | rti (low : BitVec 12)
  /-- RES, the reserved opcode 1101 (R251); low is instr[11:0] -/
  | res (low : BitVec 12)
deriving DecidableEq, Repr

end Sys2Proof
end

