-- ==== Sys2Proof/WellFormed.lean ====
section
/-! DEFINITION. Which instructions have an encoding: an immediate or offset lies in the signed range of its field
(spec/30_encoding.md R122 to R124). Registers, condition bits, vectors and ignored bits are in range by their types. -/

namespace Sys2Proof

/-- The 16-bit value v, read as signed, lies in the range of an n-bit two's-complement field. -/
def fitsSigned (n : Nat) (v : Word) : Bool :=
  decide (-(2 ^ (n - 1) : Int) ≤ v.toInt) && decide (v.toInt < (2 ^ (n - 1) : Int))

/-- The instruction has an encoding (R122: imm5 in -16..15; R123: offset9 in -256..255, offset11 in -1024..1023;
R124: offset6 in -32..31). -/
def Instr.wellFormed : Instr → Bool
  | .add _ _ _ => true
  | .addi _ _ imm5 => fitsSigned 5 imm5
  | .and _ _ _ => true
  | .andi _ _ imm5 => fitsSigned 5 imm5
  | .not _ _ => true
  | .br _ _ _ offset9 => fitsSigned 9 offset9
  | .jmp _ => true
  | .jsr offset11 => fitsSigned 11 offset11
  | .jsrr _ => true
  | .ld _ offset9 => fitsSigned 9 offset9
  | .ldi _ offset9 => fitsSigned 9 offset9
  | .ldr _ _ offset6 => fitsSigned 6 offset6
  | .lea _ offset9 => fitsSigned 9 offset9
  | .st _ offset9 => fitsSigned 9 offset9
  | .sti _ offset9 => fitsSigned 9 offset9
  | .str _ _ offset6 => fitsSigned 6 offset6
  | .trap _ => true
  | .rti _ => true
  | .res _ => true

end Sys2Proof
end

