-- ==== Sys2Proof/Decode.lean ====
section
/-! DEFINITION. Decoding and encoding of instruction words (spec/30_encoding.md R110 to R128), and the bit-field and
widening operations both use (spec/00_scope.md R22, R23). -/

namespace Sys2Proof

/-- The field of len bits whose lowest bit is bit lo: R22 writes it w[lo+len-1 : lo]. -/
def field (w : Word) (lo len : Nat) : BitVec len := w.extractLsb' lo len

/-- sext_N of R23: the bits from n up are set to 1 when bit n-1 of v is 1, and are 0 otherwise. -/
def sext (n : Nat) (v : BitVec n) : Word :=
  if v.getLsbD (n - 1) then v.setWidth 16 ||| (0xFFFF#16 <<< n) else v.setWidth 16

/-- zext_N of R23: the bits from n up are 0. -/
def zext {n : Nat} (v : BitVec n) : Word := v.setWidth 16

/-- A 3-bit register field names R0..R7 by its value (R112). -/
def Reg.ofBits (b : BitVec 3) : Reg :=
  match b.toNat with
  | 0 => .r0
  | 1 => .r1
  | 2 => .r2
  | 3 => .r3
  | 4 => .r4
  | 5 => .r5
  | 6 => .r6
  | _ => .r7

/-- The 3-bit field that names a register (R112). -/
def Reg.toBits : Reg → BitVec 3
  | .r0 => 0#3
  | .r1 => 1#3
  | .r2 => 2#3
  | .r3 => 3#3
  | .r4 => 4#3
  | .r5 => 5#3
  | .r6 => 6#3
  | .r7 => 7#3

/-- Why the decoder refuses, by name. -/
inductive DecodeError where
  /-- an opcode value for which R120 has no row (R252); no word has one, since all sixteen are assigned (R127) -/
  | unknownOpcode (opcode : BitVec 4)
  /-- fewer than the two bytes of an instruction word (R110) -/
  | truncated
deriving DecidableEq, Repr

/-- The decoder of R128: bits 15..12 select the row (R111), instr[5] the form of ADD and AND and instr[11] that of
JSR/JSRR (R121). Bits outside the named fields are not looked at (R126). -/
def decode (w : Word) : Except DecodeError Instr :=
  match (field w 12 4).toNat with
  | 0x0 => .ok (.br (w.getLsbD 11) (w.getLsbD 10) (w.getLsbD 9) (sext 9 (field w 0 9)))
  | 0x1 =>
    if w.getLsbD 5 then .ok (.addi (.ofBits (field w 9 3)) (.ofBits (field w 6 3)) (sext 5 (field w 0 5)))
    else .ok (.add (.ofBits (field w 9 3)) (.ofBits (field w 6 3)) (.ofBits (field w 0 3)))
  | 0x2 => .ok (.ld (.ofBits (field w 9 3)) (sext 9 (field w 0 9)))
  | 0x3 => .ok (.st (.ofBits (field w 9 3)) (sext 9 (field w 0 9)))
  | 0x4 =>
    if w.getLsbD 11 then .ok (.jsr (sext 11 (field w 0 11)))
    else .ok (.jsrr (.ofBits (field w 6 3)))
  | 0x5 =>
    if w.getLsbD 5 then .ok (.andi (.ofBits (field w 9 3)) (.ofBits (field w 6 3)) (sext 5 (field w 0 5)))
    else .ok (.and (.ofBits (field w 9 3)) (.ofBits (field w 6 3)) (.ofBits (field w 0 3)))
  | 0x6 => .ok (.ldr (.ofBits (field w 9 3)) (.ofBits (field w 6 3)) (sext 6 (field w 0 6)))
  | 0x7 => .ok (.str (.ofBits (field w 9 3)) (.ofBits (field w 6 3)) (sext 6 (field w 0 6)))
  | 0x8 => .ok (.rti (field w 0 12))
  | 0x9 => .ok (.not (.ofBits (field w 9 3)) (.ofBits (field w 6 3)))
  | 0xA => .ok (.ldi (.ofBits (field w 9 3)) (sext 9 (field w 0 9)))
  | 0xB => .ok (.sti (.ofBits (field w 9 3)) (sext 9 (field w 0 9)))
  | 0xC => .ok (.jmp (.ofBits (field w 6 3)))
  | 0xD => .ok (.res (field w 0 12))
  | 0xE => .ok (.lea (.ofBits (field w 9 3)) (sext 9 (field w 0 9)))
  | 0xF => .ok (.trap (field w 0 8))
  | _ => .error (.unknownOpcode (field w 12 4))

/-- The decoder on bytes in the image's order, high byte first (spec/70_reset_and_hazards.md R345): the instruction and
the bytes after it. -/
def decodeBytes : List Byte → Except DecodeError (Instr × List Byte)
  | hi :: lo :: rest => (decode (hi ++ lo)).map (fun i => (i, rest))
  | _ => .error .truncated

/-- The word of a well-formed instruction, from the format tables R113 to R119 and the opcode map R120. Ignored bits get
the values LC-3 assemblers write: 111111 for NOT (R115), 0 elsewhere. DESIGN CHOICE, log entry 14 (safe). -/
def encode : Instr → Word
  | .add dr sr1 sr2 => 0b0001#4 ++ dr.toBits ++ sr1.toBits ++ 0b000#3 ++ sr2.toBits
  | .addi dr sr1 imm5 => 0b0001#4 ++ dr.toBits ++ sr1.toBits ++ 0b1#1 ++ imm5.setWidth 5
  | .and dr sr1 sr2 => 0b0101#4 ++ dr.toBits ++ sr1.toBits ++ 0b000#3 ++ sr2.toBits
  | .andi dr sr1 imm5 => 0b0101#4 ++ dr.toBits ++ sr1.toBits ++ 0b1#1 ++ imm5.setWidth 5
  | .not dr sr => 0b1001#4 ++ dr.toBits ++ sr.toBits ++ 0b111111#6
  | .br n z p offset9 => 0b0000#4 ++ BitVec.ofBool n ++ BitVec.ofBool z ++ BitVec.ofBool p ++ offset9.setWidth 9
  | .jmp base => 0b1100#4 ++ 0b000#3 ++ base.toBits ++ 0b000000#6
  | .jsr offset11 => 0b01001#5 ++ offset11.setWidth 11
  | .jsrr base => 0b01000#5 ++ 0b00#2 ++ base.toBits ++ 0b000000#6
  | .ld dr offset9 => 0b0010#4 ++ dr.toBits ++ offset9.setWidth 9
  | .ldi dr offset9 => 0b1010#4 ++ dr.toBits ++ offset9.setWidth 9
  | .ldr dr base offset6 => 0b0110#4 ++ dr.toBits ++ base.toBits ++ offset6.setWidth 6
  | .lea dr offset9 => 0b1110#4 ++ dr.toBits ++ offset9.setWidth 9
  | .st sr offset9 => 0b0011#4 ++ sr.toBits ++ offset9.setWidth 9
  | .sti sr offset9 => 0b1011#4 ++ sr.toBits ++ offset9.setWidth 9
  | .str sr base offset6 => 0b0111#4 ++ sr.toBits ++ base.toBits ++ offset6.setWidth 6
  | .trap vect8 => 0b1111#4 ++ 0b0000#4 ++ vect8
  | .rti low => 0b1000#4 ++ low
  | .res low => 0b1101#4 ++ low

/-- The instruction the decoder reads from an instruction of spec/opcode_table.json whose bits are w, bit 0 the least
significant bit of the (one) word; bits from nbits up are 0. -/
def decodeTableWord (nbits w : Nat) : Option Instr :=
  (decode (BitVec.ofNat 16 (w % 2 ^ nbits))).toOption

end Sys2Proof
end

