-- ==== Sys2Proof/Config.lean ====
section
/-! DEFINITION. What an implementation fixes (spec/00_scope.md R14 to R21) and the free values of the spec.

The parameters a run may be started with are plain data, and State carries them, so that a statement over every state is
one over every configuration (log entry 3). The OPEN function BLK_SYNTH and the OPEN exit codes are opaque constants:
nothing can be proved of their values (log entries 5 and 6). -/

namespace Sys2Proof

/-- The parameters of one machine. No step changes them. -/
structure Config where
  /-- VIRTIO_ENTRY is 0x0100 plus this: every value in IVT_LO..IVT_HI and no other (R14) -/
  virtioSlot : Byte
  /-- KBSR_CLEAR_ON_EMPTY (R18) -/
  kbsrClearOnEmpty : Bool
  /-- TRAP_IN_SETS_FLAGS (R19) -/
  trapInSetsFlags : Bool
  /-- IN_PROMPT (R20) -/
  inPrompt : List Byte
  /-- HALT_MESSAGE (R20) -/
  haltMessage : List Byte
  /-- START_PC (R16) -/
  startPc : Word
  /-- whether a device request that is dropped is reported: spec/60_exceptions.md R264 says that it is logged, and
  spec/10_state.md R52 and R271 to R277 give it no log entry. DESIGN CHOICE to admit both, log entry 19 (safe). -/
  logsDroppedRequests : Bool
deriving DecidableEq, Repr

/-- The defaults of R16, R18, R19, R20. R14 gives VIRTIO_ENTRY no default: 0x0180 is the test instance of D17.
DESIGN CHOICE, log entry 4 (unsafe for a claim about runs from reset). Dropped requests are not reported, as V63 to V65 of
spec/95_test_vectors.md have it (log entry 19). -/
def Config.initial : Config where
  virtioSlot := 0x80#8
  kbsrClearOnEmpty := false
  trapInSetsFlags := true
  inPrompt := []
  haltMessage := []
  startPc := 0x3000#16
  logsDroppedRequests := false

/-- VIRTIO_ENTRY, the doorbell's address (R14). -/
def Config.virtioEntry (c : Config) : Word := 0x0100#16 + c.virtioSlot.setWidth 16

/-- BLK_SYNTH(position, length, k) (R17): the placeholder word of a block READ. OPEN: a deterministic function of its
three arguments of which nothing else is known. DESIGN CHOICE to hold it as an opaque constant, log entry 5 (safe). -/
opaque Config.blkSynth : Word → Word → Word → Word

/-- EXIT_NO_ARG, where R21 allows it. Log entry 6 (safe). -/
opaque Config.freeNoArg : Int
/-- EXIT_LOAD_FAIL, where R21 allows it. Log entry 6 (safe). -/
opaque Config.freeLoadFail : Int
/-- EXIT_SIGNAL, where R21 allows it. Log entry 6 (safe). -/
opaque Config.freeSignal : Int
/-- EXIT_ABORT (R21, R54). Log entry 6 (safe). -/
opaque Config.exitAbort : Int

/-- The free code k, unless it is taken; then one that is not taken. Every code that is not taken is some k's. -/
def Config.otherThan (taken : List Int) (k : Int) : Int :=
  if k ∈ taken then taken.foldr max 0 + 1 else k

/-- EXIT_HALT (R21): "normal halt exits 0". -/
def Config.exitHalt : Int := 0
/-- EXIT_NO_ARG (R21): some non-zero code. -/
def Config.exitNoArg : Int := Config.otherThan [Config.exitHalt] Config.freeNoArg
/-- EXIT_LOAD_FAIL (R21): some non-zero code. -/
def Config.exitLoadFail : Int := Config.otherThan [Config.exitHalt] Config.freeLoadFail
/-- EXIT_SIGNAL (R21): a non-zero code distinct from every other exit code, the status of an external stop (R55). -/
def Config.exitSignal : Int :=
  Config.otherThan [Config.exitHalt, Config.exitNoArg, Config.exitLoadFail, Config.exitAbort] Config.freeSignal

end Sys2Proof
end

