-- ==== Sys2Proof/Machine/State.lean ====
section
/-! DEFINITION. The machine's state as plain data (spec/10_state.md R30, R42, R43, R45, R46, R48 to R52), the reasons it
can stop, and the state after reset (spec/70_reset_and_hazards.md R341). -/

namespace Sys2Proof.Machine

/-- The eight general registers (R31). -/
structure Regs where
  r0 : Word
  r1 : Word
  r2 : Word
  r3 : Word
  r4 : Word
  r5 : Word
  r6 : Word
  r7 : Word
deriving DecidableEq, Repr

/-- RUN (R43). -/
inductive RunState where
  | running | halted | aborted
deriving DecidableEq, Repr

/-- The two reasons of an abort (spec/60_exceptions.md R260). -/
inductive AbortReason where
  | abortRti | abortRes
deriving DecidableEq, Repr

/-- ABORT_INFO's record (R45): the reason, the instruction word and the word's address. -/
structure AbortInfo where
  reason : AbortReason
  word : Word
  addr : Word
deriving DecidableEq, Repr

/-- Memory as the words that differ from what the reset sequence left: (address, word) pairs, addresses strictly rising,
none equal to the word's reset contents. Cells are words, the spec's unit of addressing (R70, R72). DESIGN CHOICE, log entry 1. -/
abbrev Memory := List (Nat × Word)

/-- One event of the console input, in the order the core meets them (R48, R49, U15). DESIGN CHOICE, log entry 7. -/
inductive ConsoleEvent where
  /-- a character, waiting from here on -/
  | key (c : Byte)
  /-- one poll made here finds nothing waiting; a blocking read waits past it -/
  | quiet
deriving DecidableEq, Repr

/-- The services that read the console and can be held (spec/43_trap.md R222, R226). -/
inductive InputService where
  | getc | inEcho
deriving DecidableEq, Repr

/-- What the block reports on the log port (R52). The text is not specified (U14); the entry keeps which report it is
and the data its rule names. -/
inductive LogEntry where
  /-- spec/44_reserved.md R252 -/
  | unknownOpcode (word : Word)
  /-- spec/43_trap.md R232 -/
  | unknownTrap (vector : Byte)
  /-- spec/60_exceptions.md R276 -/
  | blkWrite (position length : Word) (payload : List Word)
  /-- spec/60_exceptions.md R283, R284 -/
  | ringFull
  /-- spec/60_exceptions.md R264: a request that finds no allocated descriptor (log entry 19) -/
  | noAllocatedDescriptor
  /-- spec/60_exceptions.md R264: a request of an unsupported operation (log entry 19) -/
  | unsupportedOperation
deriving DecidableEq, Repr

/-- Everything the spec gives the machine, its parameters and its ports, as plain data. -/
structure State where
  /-- R0..R7 (R31) -/
  regs : Regs
  /-- the program counter (R34) -/
  pc : Word
  /-- the condition-flags register (R37) -/
  cond : Word
  /-- RUN (R43) -/
  run : RunState
  /-- ABORT_INFO (R45) -/
  abortInfo : Option AbortInfo
  /-- M[0x0000..0xFFFF], the device registers and the ring among them (R30, R42) -/
  mem : Memory
  /-- the input service the step in progress is held in (R49, R305). The model's own field: DESIGN CHOICE, log entry 9. -/
  held : Option InputService
  /-- the console input still to come (R48, R49). DESIGN CHOICE, log entry 7. -/
  consoleIn : List ConsoleEvent
  /-- whether the console input ends after consoleIn (R49). DESIGN CHOICE, log entry 7. -/
  consoleEnded : Bool
  /-- the characters emitted so far, oldest first (R50). DESIGN CHOICE, log entry 10. -/
  consoleOut : List Byte
  /-- the reports emitted so far, oldest first (R52). DESIGN CHOICE, log entry 10. -/
  log : List LogEntry
  /-- the parameters (spec/00_scope.md R14 to R20). DESIGN CHOICE, log entry 3. -/
  cfg : Config
deriving DecidableEq, Repr

/-- Why the machine stops with no next state. -/
inductive Fault where
  /-- Raised by TRAP x22 (PUTS) and TRAP x24 (PUTSP) when no word of memory is 0x0000: the walk never ends and the step
  never completes (spec/43_trap.md R225; U17 "stuck"). Safe: the machine has no next state either. -/
  | stringNeverEnds
deriving DecidableEq, Repr

/-- Why an instruction has no meaning. -/
inductive Refusal where
  /-- Raised by exec's arm of an instruction without a meaning, by its mnemonic. Safe. No arm raises it: every
  instruction has its meaning. -/
  | notModelled (mnemonic : String)
deriving DecidableEq, Repr

/-- The machine right after reset (R341, R56): registers and PC 0, COND = POS, RUNNING, no abort record, memory as the
memory clear and the device initialisation leave it (nothing listed). The ports are empty and the console input has
ended (log entries 8, 9, 10: DESIGN CHOICE); the parameters are those of Config.initial (log entry 4: DESIGN CHOICE). -/
def State.reset : State where
  regs := ⟨0#16, 0#16, 0#16, 0#16, 0#16, 0#16, 0#16, 0#16⟩
  pc := 0x0000#16
  cond := 0x0001#16
  run := .running
  abortInfo := none
  mem := []
  held := none
  consoleIn := []
  consoleEnded := true
  consoleOut := []
  log := []
  cfg := Config.initial

end Sys2Proof.Machine
end

