-- ==== Sys2Proof/Machine/Ops.lean ====
section
/-! DEFINITION. The named operations over memory, registers, ports and run state: raw memory access
(spec/00_scope.md R25), register access (R24), the console ports (spec/10_state.md R48 to R50), the log port (R52), and
the abort, this hardware's only exception (spec/60_exceptions.md R261). There is no return from an exception to write
beside it: RTI aborts and nothing else returns (R262, R306). -/

namespace Sys2Proof.Machine

/-! Addresses and sizes. -/

/-- IVT_LO (R12). -/
def ivtLo : Word := 0x0100#16
/-- IVT_HI (R12). -/
def ivtHi : Word := 0x01FF#16
/-- KBSR_ADDR (R13). -/
def kbsrAddr : Word := 0xFE00#16
/-- KBDR_ADDR (R13). -/
def kbdrAddr : Word := 0xFE02#16
/-- EOF_VALUE, what a blocking read answers at end of input (R49). -/
def eofValue : Word := 0xFFFF#16
/-- N_DESC (R11). -/
def nDesc : Nat := 10
/-- DESC_CAP (R15). -/
def descCap : Word := 128#16
/-- RING_BASE (R15, R279). -/
def ringBase : Word := 0x7FFF#16
/-- DATA_BASE (R42, R279). -/
def dataBase : Word := 0x802B#16
/-- AVAIL_FLAGS (R279). -/
def availFlagsAddr : Word := ringBase
/-- AVAIL_IDX (R279). -/
def availIdxAddr : Word := ringBase + 1#16
/-- USED_FLAGS (R279). -/
def usedFlagsAddr : Word := ringBase + 2#16
/-- USED_IDX (R279). -/
def usedIdxAddr : Word := ringBase + 3#16
/-- The address of descriptor i, whose words are ADDR, LEN, FLAGS, NEXT (R279). -/
def descAddr (i : Word) : Word := ringBase + 4#16 + 4#16 * i
/-- DESC[i].FLAGS (R279). -/
def descFlagsAddr (i : Word) : Word := descAddr i + 2#16
/-- BLK_READ (R282). -/
def blkRead : Word := 0x0000#16
/-- BLK_WRITE (R282). -/
def blkWrite : Word := 0x0001#16
/-- The completion code of a replay (R270). -/
def completionCode : Word := 0x0002#16

/-! Memory: the raw get and set of R25. -/

/-- What a word that nothing has written reads as: 0x0000 (R47), but for the ring words that the device initialisation
of R280 writes: for i in 0..9 at 0x8003 + 4i the buffer address, the capacity, the clear flags and the free-chain link. -/
def resetWord (a : Nat) : Word :=
  if 0x8003 ≤ a ∧ a < 0x8003 + 4 * nDesc then
    let i := (a - 0x8003) / 4
    match (a - 0x8003) % 4 with
    | 0 => dataBase + descCap * BitVec.ofNat 16 i
    | 1 => descCap
    | 2 => 0x0000#16
    | _ => if i < 9 then BitVec.ofNat 16 (i + 1) else 0x0000#16
  else 0x0000#16

/-- The stored word at an address. -/
def Memory.get : Memory → Nat → Word
  | [], a => resetWord a
  | (b, w) :: rest, a => if a = b then w else Memory.get rest a

/-- Memory with one word stored, in canonical form: a word equal to its reset contents is not listed. -/
def Memory.put : Memory → Nat → Word → Memory
  | [], a, v => if v = resetWord a then [] else [(a, v)]
  | (b, w) :: rest, a, v =>
    if a < b then if v = resetWord a then (b, w) :: rest else (a, v) :: (b, w) :: rest
    else if a = b then if v = resetWord a then rest else (a, v) :: rest
    else (b, w) :: Memory.put rest a v

/-- Every listed address is at least lo, they rise strictly, each is an address, and no word is listed at its reset
contents. -/
def Memory.wfFrom : Nat → Memory → Bool
  | _, [] => true
  | lo, (b, w) :: rest => decide (lo ≤ b) && decide (b < 65536) && decide (w ≠ resetWord b) && Memory.wfFrom (b + 1) rest

/-- The canonical form of memory. -/
def Memory.wf (m : Memory) : Bool := Memory.wfFrom 0 m

/-- M[a], no side effect (R25). -/
def State.rawRead (s : State) (a : Word) : Word := Memory.get s.mem a.toNat

/-- M[a] <- v, no side effect (R25). -/
def State.rawWrite (s : State) (a v : Word) : State := { s with mem := Memory.put s.mem a.toNat v }

/-! Registers (R24, R31). -/

/-- The register a name names. -/
def Regs.get (rs : Regs) : Reg → Word
  | .r0 => rs.r0
  | .r1 => rs.r1
  | .r2 => rs.r2
  | .r3 => rs.r3
  | .r4 => rs.r4
  | .r5 => rs.r5
  | .r6 => rs.r6
  | .r7 => rs.r7

/-- The registers with one of them replaced. -/
def Regs.set (rs : Regs) (r : Reg) (v : Word) : Regs :=
  match r with
  | .r0 => { rs with r0 := v }
  | .r1 => { rs with r1 := v }
  | .r2 => { rs with r2 := v }
  | .r3 => { rs with r3 := v }
  | .r4 => { rs with r4 := v }
  | .r5 => { rs with r5 := v }
  | .r6 => { rs with r6 := v }
  | .r7 => { rs with r7 := v }

/-- R[r]. -/
def State.reg (s : State) (r : Reg) : Word := s.regs.get r

/-- R[r] <- v. No register is hard-wired (R31). -/
def State.setReg (s : State) (r : Reg) (v : Word) : State := { s with regs := s.regs.set r v }

/-- PC <- v. -/
def State.setPc (s : State) (v : Word) : State := { s with pc := v }

/-- COND <- v. Only setcc of Flags.lean uses it (R38). -/
def State.setCond (s : State) (v : Word) : State := { s with cond := v }

/-- R7 <- PC, the link of JSR, JSRR and TRAP (R32). -/
def State.link (s : State) : State := s.setReg .r7 s.pc

/-! Ports. -/

/-- ConsoleOut of each character in turn (R50). -/
def State.emit (s : State) (cs : List Byte) : State := { s with consoleOut := s.consoleOut ++ cs }

/-- log(...) (R52). -/
def State.report (s : State) (e : LogEntry) : State := { s with log := s.log ++ [e] }

/-- The report of a dropped device request (spec/60_exceptions.md R264), where the machine makes one (log entry 19). -/
def State.reportDropped (s : State) (e : LogEntry) : State :=
  { s with log := s.log ++ if s.cfg.logsDroppedRequests then [e] else [] }

/-- ConsolePoll() (R48): a waiting character is removed and answered; otherwise none, and no character is removed. -/
def State.consolePoll (s : State) : Option Byte × State :=
  match s.consoleIn with
  | [] => (none, s)
  | .quiet :: rest => (none, { s with consoleIn := rest })
  | .key c :: rest => (some c, { s with consoleIn := rest })

/-- The next character of the input and what follows it, whenever it comes. -/
def nextKey : List ConsoleEvent → Option (Byte × List ConsoleEvent)
  | [] => none
  | .quiet :: rest => nextKey rest
  | .key c :: rest => some (c, rest)

/-- ConsoleGet() (R49): the next character, zero-extended and removed; EOF_VALUE when the input has ended; and no answer
while the host has supplied nothing, when the caller is held. -/
def State.consoleGet (s : State) : Option Word × State :=
  match nextKey s.consoleIn with
  | some (c, rest) => (some (zext c), { s with consoleIn := rest })
  | none => if s.consoleEnded then (some eofValue, s) else (none, s)

/-- The step in progress is held in an input service, or no longer held (R49). -/
def State.setHeld (s : State) (h : Option InputService) : State := { s with held := h }

/-! Run state. -/

/-- RUN <- HALTED (R27, R43). -/
def State.halt (s : State) : State := { s with run := .halted }

/-- The code of an abort reason (R260). -/
def AbortReason.code : AbortReason → Word
  | .abortRti => 0x8#16
  | .abortRes => 0xD#16

/-- raise Abort(reason, info) (R261), with the word's address PC - 1 after the increment (R45): taking this hardware's
only exception. Nothing else changes (R262). -/
def State.raiseAbort (s : State) (reason : AbortReason) (word : Word) : State :=
  { s with run := .aborted, abortInfo := some ⟨reason, word, s.pc - 1#16⟩ }

end Sys2Proof.Machine
end

