-- ==== Sys2Proof/Machine/Device.lean ====
section
/-! DEFINITION. The virtio block device and the interrupt dispatcher (spec/60_exceptions.md R265 to R289). All their
memory accesses are raw, at addresses modulo 2^16 (R267). -/

namespace Sys2Proof.Machine

/-- What the handler answers (R271). -/
inductive Handled where
  | replay | noReplay
deriving DecidableEq, Repr

/-- The loop of R275: for k from 0 below n, M[a+3+k] <- BLK_SYNTH(position, length, k). -/
def State.synthFill (s : State) (a position length : Word) : Nat → State
  | 0 => s
  | k + 1 =>
    (s.synthFill a position length k).rawWrite (a + 3#16 + BitVec.ofNat 16 k)
      (Config.blkSynth position length (BitVec.ofNat 16 k))

/-- A block READ (R275): the placeholder words, the used ring, the descriptor marked allocated again. -/
def State.blockRead (s : State) (i a position length : Word) : State :=
  (((s.synthFill a position length length.toNat).rawWrite usedFlagsAddr 0x0001#16).rawWrite usedIdxAddr i).rawWrite
    (descFlagsAddr i) 0x0001#16

/-- The payload of a request: the words M[a+3+k], k from 0 below the length (R276, R282). -/
def State.payload (s : State) (a length : Word) : List Word :=
  (List.range length.toNat).map fun k => s.rawRead (a + 3#16 + BitVec.ofNat 16 k)

/-- A block WRITE (R276): logged; nothing is stored. -/
def State.blockWrite (s : State) (a position length : Word) : State :=
  s.report (.blkWrite position length (s.payload a length))

/-- The request record at the descriptor's buffer (R282), served by its operation (R275, R276, R277);
an unsupported one is dropped (R264). -/
def State.serve (s : State) (i : Word) : State × Handled :=
  let a := s.rawRead (descAddr i)
  let op := s.rawRead a
  let position := s.rawRead (a + 1#16)
  let length := s.rawRead (a + 2#16)
  if op = blkRead then (s.blockRead i a position length, .replay)
  else if op = blkWrite then (s.blockWrite a position length, .replay)
  else (s.reportDropped .unsupportedOperation, .noReplay)

/-- Handler(flags) (R271 to R274); a request that finds no allocated descriptor is dropped (R264). -/
def State.handle (s : State) (flags : Word) : State × Handled :=
  if flags.getLsbD 0 = false then (s, .noReplay)
  else if s.rawRead availFlagsAddr = 0#16 then (s, .noReplay)
  else
    let s1 := s.rawWrite availFlagsAddr 0#16
    let i := s1.rawRead availIdxAddr
    if nDesc ≤ i.toNat then (s1.reportDropped .noAllocatedDescriptor, .noReplay)
    else if s1.rawRead (descFlagsAddr i) = 0#16 then (s1.reportDropped .noAllocatedDescriptor, .noReplay)
    else (s1.rawWrite (descFlagsAddr i) 0#16).serve i

/-- Dispatch(e) (R265): only VIRTIO_ENTRY is recognised; the handler gets the word just stored, and a serviced request
is answered by the completion code in the doorbell word (R270). -/
def State.dispatch (s : State) (e : Word) : State :=
  if e = s.cfg.virtioEntry then
    match s.handle (s.rawRead e) with
    | (s', .replay) => s'.rawWrite e completionCode
    | (s', .noReplay) => s'
  else s

end Sys2Proof.Machine
end

