-- ==== Sys2Proof/Machine/Access.lean ====
section
/-! DEFINITION. The instrumented accessors MemRead (spec/20_memory.md R78 to R81) and MemWrite (R83 to R86), and the
fetch made with MemRead (R82). -/

namespace Sys2Proof.Machine

/-- What a poll of the keyboard does to KBSR and KBDR (R78, R79, R80). -/
def State.pollKeyboard (s : State) : State :=
  match s.consolePoll with
  | (some c, s') => (s'.rawWrite kbsrAddr (s'.rawRead kbsrAddr ||| 0x8000#16)).rawWrite kbdrAddr (zext c)
  | (none, s') =>
    if s'.cfg.kbsrClearOnEmpty then (s'.rawWrite kbdrAddr 0#16).rawWrite kbsrAddr 0#16 else s'.rawWrite kbdrAddr 0#16

/-- The state after the side effect of MemRead(a): a poll where a is KBSR_ADDR, nothing elsewhere (R77, R81). -/
def State.afterRead (s : State) (a : Word) : State := if a = kbsrAddr then s.pollKeyboard else s

/-- MemRead(a) (R78): the side effect, then the stored word. -/
def State.memRead (s : State) (a : Word) : Word × State := ((s.afterRead a).rawRead a, s.afterRead a)

/-- The write class of R77: the dispatcher runs for addresses in the interrupt-vector window. -/
def inIvt (a : Word) : Bool := decide (ivtLo ≤ a) && decide (a ≤ ivtHi)

/-- MemWrite(a, v) (R83): the store, then the dispatch, complete before the instruction ends (R84). -/
def State.memWrite (s : State) (a v : Word) : State :=
  if inIvt a then (s.rawWrite a v).dispatch a else s.rawWrite a v

/-- Fetch (R82, R34, R263): the word at PC by MemRead, then the increment of PC modulo 2^16 (R35). -/
def State.fetch (s : State) : Word × State :=
  ((s.memRead s.pc).1, (s.memRead s.pc).2.setPc (s.pc + 1#16))

end Sys2Proof.Machine
end

