-- ==== Sys2Proof/Machine/Flags.lean ====
section
/-! DEFINITION. The condition flags: the values of COND (spec/10_state.md R37), setcc (spec/00_scope.md R26) and BR's
test (spec/41_control.md R170). -/

namespace Sys2Proof.Machine

/-- POS (R37). -/
def condPos : Word := 0x0001#16
/-- ZRO (R37). -/
def condZro : Word := 0x0002#16
/-- NEG (R37). -/
def condNeg : Word := 0x0004#16

/-- The flags of a result (R26). -/
def condOf (v : Word) : Word :=
  if v = 0#16 then condZro else if v.getLsbD 15 then condNeg else condPos

/-- setcc(v) (R26). -/
def State.setcc (s : State) (v : Word) : State := s.setCond (condOf v)

/-- R[r] <- v and setcc(R[r]): how every flag-defining instruction ends (R38). -/
def State.setRegCc (s : State) (r : Reg) (v : Word) : State := (s.setReg r v).setcc v

/-- instr[11:9] meets COND[2:0] (R170); the mask's bits line up with NEG, ZRO, POS (R125). -/
def branchTaken (n z p : Bool) (cond : Word) : Bool :=
  decide ((BitVec.ofBool n ++ BitVec.ofBool z ++ BitVec.ofBool p) &&& field cond 0 3 ≠ 0#3)

end Sys2Proof.Machine
end

