-- ==== Sys2Proof/Machine/Operands.lean ====
section
/-! DEFINITION. The operand forms: the effective addresses of spec/42_load_store.md R197, modulo 2^16. -/

namespace Sys2Proof.Machine

/-- What a meaning answers. -/
abbrev Result := Host.Outcome State Fault Refusal

/-- PC-relative: the incremented PC plus the offset (R123, R197). -/
def State.pcRel (s : State) (offset : Word) : Word := s.pc + offset

/-- Base plus offset (R124, R197). -/
def State.baseRel (s : State) (base : Reg) (offset : Word) : Word := s.reg base + offset

/-- Indirect: the address held in the word at the PC-relative address, by an instrumented read (R191, R195, R197), with
the state that read leaves. -/
def State.indirect (s : State) (offset : Word) : Word × State := s.memRead (s.pcRel offset)

/-- A load of the word at ea into a register, flags from the loaded word (R190 to R192): MemRead, then the register. -/
def State.loadReg (s : State) (dr : Reg) (ea : Word) : State := (s.memRead ea).2.setRegCc dr (s.memRead ea).1

end Sys2Proof.Machine
end

