-- ==== Sys2Proof/Machine/Control.lean ====
section
/-! DEFINITION. BR, JMP, JSR, JSRR (spec/41_control.md R170 to R175). PC is the incremented PC. -/

namespace Sys2Proof.Machine

/-- BR, R170, R171. -/
def execBr (n z p : Bool) (offset9 : Word) (s : State) : Result :=
  .next (if branchTaken n z p s.cond then s.setPc (s.pcRel offset9) else s)

/-- JMP, R172; RET is JMP R7, R173. -/
def execJmp (base : Reg) (s : State) : Result := .next (s.setPc (s.reg base))

/-- JSR, R174. -/
def execJsr (offset11 : Word) (s : State) : Result := .next (s.link.setPc (s.pcRel offset11))

/-- JSRR, R175: the register is read after R7 is written, so that JSRR R7 goes on at the incremented PC (C9). -/
def execJsrr (base : Reg) (s : State) : Result := .next (s.link.setPc (s.link.reg base))

end Sys2Proof.Machine
end

