-- ==== Sys2Proof/Machine/LoadStore.lean ====
section
/-! DEFINITION. LD, LDI, LDR, LEA, ST, STI, STR (spec/42_load_store.md R190 to R196). -/

namespace Sys2Proof.Machine

/-- LD, R190. -/
def execLd (dr : Reg) (offset9 : Word) (s : State) : Result := .next (s.loadReg dr (s.pcRel offset9))

/-- LDI, R191: two instrumented reads, the pointer's first. -/
def execLdi (dr : Reg) (offset9 : Word) (s : State) : Result :=
  .next ((s.indirect offset9).2.loadReg dr (s.indirect offset9).1)

/-- LDR, R192. -/
def execLdr (dr base : Reg) (offset6 : Word) (s : State) : Result := .next (s.loadReg dr (s.baseRel base offset6))

/-- LEA, R193: no memory access. -/
def execLea (dr : Reg) (offset9 : Word) (s : State) : Result := .next (s.setRegCc dr (s.pcRel offset9))

/-- ST, R194. -/
def execSt (sr : Reg) (offset9 : Word) (s : State) : Result := .next (s.memWrite (s.pcRel offset9) (s.reg sr))

/-- STI, R195: the pointer's instrumented read, then the write. -/
def execSti (sr : Reg) (offset9 : Word) (s : State) : Result :=
  .next ((s.indirect offset9).2.memWrite (s.indirect offset9).1 (s.reg sr))

/-- STR, R196. -/
def execStr (sr base : Reg) (offset6 : Word) (s : State) : Result :=
  .next (s.memWrite (s.baseRel base offset6) (s.reg sr))

end Sys2Proof.Machine
end

