-- ==== Sys2Proof/Machine/Operate.lean ====
section
/-! DEFINITION. ADD, AND, NOT (spec/40_operate.md R150 to R154). Operands are read before the result is written. -/

namespace Sys2Proof.Machine

/-- ADD (register), R150. -/
def execAdd (dr sr1 sr2 : Reg) (s : State) : Result := .next (s.setRegCc dr (s.reg sr1 + s.reg sr2))

/-- ADD (immediate), R151. -/
def execAddi (dr sr1 : Reg) (imm5 : Word) (s : State) : Result := .next (s.setRegCc dr (s.reg sr1 + imm5))

/-- AND (register), R152. -/
def execAnd (dr sr1 sr2 : Reg) (s : State) : Result := .next (s.setRegCc dr (s.reg sr1 &&& s.reg sr2))

/-- AND (immediate), R153. -/
def execAndi (dr sr1 : Reg) (imm5 : Word) (s : State) : Result := .next (s.setRegCc dr (s.reg sr1 &&& imm5))

/-- NOT, R154. -/
def execNot (dr sr : Reg) (s : State) : Result := .next (s.setRegCc dr (s.reg sr ^^^ 0xFFFF#16))

end Sys2Proof.Machine
end

