-- ==== Sys2Proof/Machine/Reserved.lean ====
section
/-! DEFINITION. RTI and the reserved opcode (spec/44_reserved.md R250, R251): each takes the fatal abort of R261. The word
recorded is the whole instruction word, its ignored bits too. -/

namespace Sys2Proof.Machine

/-- RTI, R250. -/
def execRti (low : BitVec 12) (s : State) : Result := .next (s.raiseAbort .abortRti (0x8#4 ++ low))

/-- RES, R251. -/
def execRes (low : BitVec 12) (s : State) : Result := .next (s.raiseAbort .abortRes (0xD#4 ++ low))

end Sys2Proof.Machine
end

