-- ==== Sys2Proof/Machine/Trap.lean ====
section
/-! DEFINITION. TRAP and its built-in services (spec/43_trap.md R220 to R232), and the hold of a blocking read
(spec/10_state.md R49). -/

namespace Sys2Proof.Machine

/-- The low character of a word (R50, R223). -/
def lowChar (w : Word) : Byte := field w 0 8

/-- The high character of a word (R227). -/
def highChar (w : Word) : Byte := field w 8 8

/-- What GETC and IN do with the value read (R222, R226): IN echoes its low 8 bits; R0 receives it; the flags follow it
where TRAP_IN_SETS_FLAGS is set (R230). -/
def State.receive (s : State) (svc : InputService) (v : Word) : State :=
  let s1 := match svc with
    | .getc => s
    | .inEcho => s.emit [lowChar v]
  if s1.cfg.trapInSetsFlags then s1.setRegCc .r0 v else s1.setReg .r0 v

/-- The blocking read of GETC and IN: it completes on a character or at end of input, and otherwise the step is held,
all state kept (R49, R305; log entry 9). -/
def State.inputService (s : State) (svc : InputService) : State :=
  match s.consoleGet with
  | (some v, s') => (s'.setHeld none).receive svc v
  | (none, s') => s'.setHeld (some svc)

/-- The words from address a up to the first zero word, the walk of R224 and R227 with raw reads; none when fuel words
hold no zero. -/
def stringFrom (m : Memory) : Nat → Word → Option (List Word)
  | 0, _ => none
  | fuel + 1, a =>
    if Memory.get m a.toNat = 0#16 then some []
    else (stringFrom m fuel (a + 1#16)).map (Memory.get m a.toNat :: ·)

/-- The string R0 points at; none when no word of memory is zero, since the walk visits all 65536 (R225). -/
def State.string (s : State) : Option (List Word) := stringFrom s.mem 65536 (s.reg .r0)

/-- One character per word (R224). -/
def charsPuts (ws : List Word) : List Byte := ws.map lowChar

/-- Two characters per word, the low byte first; a zero high byte is not printed (R227). -/
def charsPutsp (ws : List Word) : List Byte :=
  ws.flatMap fun w => if highChar w = 0#8 then [lowChar w] else [lowChar w, highChar w]

/-- GETC, R222. -/
def State.serviceGetc (s : State) : Result := .next (s.inputService .getc)

/-- OUT, R223. -/
def State.serviceOut (s : State) : Result := .next (s.emit [lowChar (s.reg .r0)])

/-- PUTS, R224, R225. -/
def State.servicePuts (s : State) : Result :=
  match s.string with
  | some ws => .next (s.emit (charsPuts ws))
  | none => .fault .stringNeverEnds

/-- IN, R226: the prompt, then the echoed read. -/
def State.serviceIn (s : State) : Result := .next ((s.emit s.cfg.inPrompt).inputService .inEcho)

/-- PUTSP, R227, R225. -/
def State.servicePutsp (s : State) : Result :=
  match s.string with
  | some ws => .next (s.emit (charsPutsp ws))
  | none => .fault .stringNeverEnds

/-- HALT, R231. -/
def State.serviceHalt (s : State) : Result := .next (s.emit s.cfg.haltMessage).halt

/-- Any other vector, R232: logged, no other effect. -/
def State.serviceUnknown (s : State) (vect8 : Byte) : Result := .next (s.report (.unknownTrap vect8))

/-- The service table, R221. -/
def State.service (s : State) (vect8 : Byte) : Result :=
  match vect8.toNat with
  | 0x20 => s.serviceGetc
  | 0x21 => s.serviceOut
  | 0x22 => s.servicePuts
  | 0x23 => s.serviceIn
  | 0x24 => s.servicePutsp
  | 0x25 => s.serviceHalt
  | _ => s.serviceUnknown vect8

/-- TRAP, R220: R7 <- PC, then the service. -/
def execTrap (vect8 : Byte) (s : State) : Result := s.link.service vect8

end Sys2Proof.Machine
end

