-- ==== Sys2Proof/Machine/Step.lean ====
section
/-! DEFINITION. One step (spec/60_exceptions.md R263): fetch, increment, decode, execute. -/

namespace Sys2Proof.Machine

/-- One step. A held input service goes on where it is held (R49; log entry 9); a word with no instruction would be
reported and passed over (R252; no word is one, log entry 18); HALTED and ABORTED are absorbing and fetch nothing (R43;
log entry 12). -/
def step (s : State) : Host.Outcome State Fault Refusal :=
  match s.run, s.held with
  | .running, none =>
    match decode s.fetch.1 with
    | .ok i => exec i s.fetch.2
    | .error _ => .next (s.fetch.2.report (.unknownOpcode s.fetch.1))
  | .running, some svc => .next (s.inputService svc)
  | .halted, _ => .next s
  | .aborted, _ => .next s

/-- The state with an instruction word of spec/opcode_table.json where step fetches next, M[PC], the machine running
and no input service held, so that the next step fetches and runs it (log entry 17; where PC is KBSR_ADDR the fetch
polls the keyboard first, as R82 says). -/
def State.withFetchWord (s : State) (nbits w : Nat) : State :=
  { s.rawWrite s.pc (BitVec.ofNat 16 (w % 2 ^ nbits)) with run := .running, held := none }

end Sys2Proof.Machine
end

