-- ==== Sys2Proof/Machine/HostPort.lean ====
section
/-! DEFINITION. What the host may do to the machine between steps: the memory port (spec/10_state.md R51), the image
load and launch (spec/70_reset_and_hazards.md R342 to R347), the console supply (R48, R49), the run state (R54), the
external stop (R55), and the driver's allocator and protocol (spec/60_exceptions.md R283 to R285). The host acts outside
step (log entry 15). -/

namespace Sys2Proof.Machine

/-! HostMem (R51): nothing is answered while a step is held, since the host never touches memory during a step. -/

/-- What the host does to memory, between steps only (R51). R51 does not say whether the host may still do so once RUN is
HALTED or ABORTED; no step is in progress there, and the model answers: DESIGN CHOICE, log entry 21 (safe). -/
def State.between {α : Type} (s : State) (x : α) : Option α := if s.held = none then some x else none

/-- The host's raw read. -/
def State.hostRead (s : State) (a : Word) : Option Word := s.between (s.rawRead a)

/-- The host's raw write. -/
def State.hostWrite (s : State) (a v : Word) : Option State := s.between (s.rawWrite a v)

/-- The host's instrumented write, the kick of a host-side driver (R266). -/
def State.hostMemWrite (s : State) (a v : Word) : Option State := s.between (s.memWrite a v)

/-! Console supply. -/

/-- More console input from the host (R48, R49). R49 does not say whether the end of input is final; in the model
characters supplied after it are read, and then the end of input is answered again, with no hold: DESIGN CHOICE, log
entry 22 (unsafe for a claim about a run past the end of input). -/
def State.supply (s : State) (events : List ConsoleEvent) : State := { s with consoleIn := s.consoleIn ++ events }

/-- The host ends the console input, for good but for what supply adds (R49; log entry 22). -/
def State.endInput (s : State) : State := { s with consoleEnded := true }

/-! Image load and launch. -/

/-- The big-endian words of a byte string; an odd trailing byte is ignored (R345, R346). -/
def imageWords : List Byte → List Word
  | hi :: lo :: rest => (hi ++ lo) :: imageWords rest
  | _ => []

/-- The load loop of R345: raw writes from an address up, stopping at the memory ceiling. They are made between steps
only, by loadImage (R51). -/
def State.loadWords (s : State) : Nat → List Word → State
  | _, [] => s
  | a, w :: ws => if 0xFFFF < a then s else (s.rawWrite (BitVec.ofNat 16 a) w).loadWords (a + 1) ws

/-- The image load (R345), between steps (R51): the origin, then the words; fewer than two bytes are a load failure
(R346). -/
def State.loadImage (s : State) : List Byte → Option State
  | hi :: lo :: rest => s.between (s.loadWords (hi ++ lo : Word).toNat (imageWords rest))
  | _ => none

/-- The image argument of a launch (R344). -/
inductive ImageArg where
  /-- no argument was given -/
  | missing
  /-- a file was named that cannot be opened or cannot be read, wholly or in part -/
  | unreadable
  /-- the bytes of the file -/
  | file (bytes : List Byte)
deriving DecidableEq, Repr

/-- What becomes of a launch (R342, R344). -/
inductive Launch where
  | started (s : State)
  | noArgument
  | loadFailed
deriving DecidableEq, Repr

/-- The launch (R342): reset with the machine's parameters, the image load, PC <- START_PC (R343). A missing argument, a
file that cannot be opened or read, and an image with no origin (R346) start no run (R344). -/
def launch (cfg : Config) (image : ImageArg) : Launch :=
  match image with
  | .missing => .noArgument
  | .unreadable => .loadFailed
  | .file bytes =>
    match ({ State.reset with cfg := cfg } : State).loadImage bytes with
    | none => .loadFailed
    | some s => .started (s.setPc cfg.startPc)

/-- The exit code of a launch that starts no run (R344). -/
def Launch.exitCode : Launch → Option Int
  | .started _ => none
  | .noArgument => some Config.exitNoArg
  | .loadFailed => some Config.exitLoadFail

/-- RunState's exit status (R54): none while running. -/
def State.exitStatus (s : State) : Option Int :=
  match s.run with
  | .running => none
  | .halted => some Config.exitHalt
  | .aborted => some Config.exitAbort

/-- The external stop (R55): the host ends a run between two steps or in a held read; no state is written, and the
process ends with EXIT_SIGNAL. R55 speaks only of a run that is neither HALTED nor ABORTED; at one that is, there is no run
left to stop and nothing is answered: DESIGN CHOICE, log entry 20 (safe). -/
def State.externalStop (s : State) : Option (State × Int) :=
  match s.run with
  | .running => some (s, Config.exitSignal)
  | .halted => none
  | .aborted => none

/-! The allocator, and a host-side driver over it. -/

/-- FindEmpty (R283): the lowest index whose descriptor is unallocated. -/
def State.findEmpty (s : State) : Option Nat :=
  (List.range nDesc).find? fun i => decide (s.rawRead (descFlagsAddr (BitVec.ofNat 16 i)) = 0#16)

/-- FindEmpty's answer as a word, NONE = 0xFFFF (R283). -/
def State.findEmptyWord (s : State) : Word :=
  match s.findEmpty with
  | some i => BitVec.ofNat 16 i
  | none => 0xFFFF#16

/-- The first step of a host-side driver (R284): an allocation, with "ring full" reported when there is none (R52).
It is made between steps only, by submit (R51). -/
def State.allocate (s : State) : Option Nat × State :=
  match s.findEmpty with
  | some i => (some i, s)
  | none => (none, s.report .ringFull)

/-- Raw writes of a list of words from an address up, modulo 2^16, made between steps only, by submit
(R51). -/
def State.rawWrites (s : State) : Word → List Word → State
  | _, [] => s
  | a, w :: ws => (s.rawWrite a w).rawWrites (a + 1#16) ws

/-- The driver's submission protocol (R284) by the host, between steps (R51): allocate, write the record and the payload,
mark the descriptor allocated, announce it, kick. A full ring drops the request. -/
def State.submit (s : State) (op position length : Word) (payload : List Word) : Option State :=
  match s.allocate with
  | (none, s') => s.between s'
  | (some n, s') =>
    let i := BitVec.ofNat 16 n
    let s1 := s'.rawWrites (s'.rawRead (descAddr i)) (op :: position :: length :: payload)
    let s2 := ((s1.rawWrite (descFlagsAddr i) 0x0001#16).rawWrite availIdxAddr i).rawWrite availFlagsAddr 0x0001#16
    s2.hostMemWrite s2.cfg.virtioEntry 0x0001#16

/-- The driver's completion protocol (R285) by the host: once the doorbell holds the completion code, the response that
the used ring points at, if its descriptor is allocated; between steps (R51). Step 6's wait is the host's: none while it would go on. -/
def State.response (s : State) : Option (List Word) :=
  let i := s.rawRead usedIdxAddr
  let a := s.rawRead (descAddr i)
  if s.rawRead s.cfg.virtioEntry = completionCode ∧ s.rawRead usedFlagsAddr ≠ 0#16 ∧ s.rawRead (descFlagsAddr i) ≠ 0#16
  then s.between (s.payload a (s.rawRead (a + 2#16)))
  else none

end Sys2Proof.Machine
end

