-- ==== Sys2Proof/Safety.lean ====
section
/-! DEFINITION. The terms claims are made in: legal states, the ends of a run, what an instruction leaves unchanged, and
a request announced to the block device. -/

namespace Sys2Proof.Machine

/-! Legal states. -/

/-- COND holds exactly one of its three values (spec/10_state.md R37). -/
def CondLegal (w : Word) : Prop := w = condPos ∨ w = condZro ∨ w = condNeg

/-- ABORT_INFO is recorded exactly when the run is aborted (R43, R45). -/
def AbortRecorded (s : State) : Prop := s.abortInfo.isSome = true ↔ s.run = .aborted

/-- Only a running machine is held in an input service (R43, R49). -/
def HeldWhileRunning (s : State) : Prop := s.held ≠ none → s.run = .running

/-- The invariant of every run: memory in its canonical form, a legal COND, an abort record exactly on an abort, and a
hold only while running. -/
def State.Inv (s : State) : Prop :=
  Memory.wf s.mem = true ∧ CondLegal s.cond ∧ AbortRecorded s ∧ HeldWhileRunning s

/-- The normal end of a run (R44). -/
def State.EndedWell (s : State) : Prop := s.run = .halted

/-- The failed end of a run (R44). -/
def State.Failed (s : State) : Prop := s.run = .aborted

/-! Frames: what is as it was before. -/

/-- Every register but those of ds. -/
def RegsKept (ds : List Reg) (s t : State) : Prop := ∀ r, r ∉ ds → t.reg r = s.reg r

/-- Every word of memory but those of ws. -/
def MemoryKept (ws : List Word) (s t : State) : Prop := ∀ a, a ∉ ws → t.rawRead a = s.rawRead a

/-- RUN, ABORT_INFO, the hold and the parameters. -/
def ControlKept (s t : State) : Prop :=
  t.run = s.run ∧ t.abortInfo = s.abortInfo ∧ t.held = s.held ∧ t.cfg = s.cfg

/-- The console input and output. -/
def ConsoleKept (s t : State) : Prop :=
  t.consoleIn = s.consoleIn ∧ t.consoleEnded = s.consoleEnded ∧ t.consoleOut = s.consoleOut

/-- The console and the log. -/
def PortsKept (s t : State) : Prop := ConsoleKept s t ∧ t.log = s.log

/-- Only registers of ds and COND may differ: PC, memory, run state and ports are as before. -/
def OnlyRegsCond (ds : List Reg) (s t : State) : Prop :=
  RegsKept ds s t ∧ t.pc = s.pc ∧ MemoryKept [] s t ∧ ControlKept s t ∧ PortsKept s t

/-- Only registers of ds and PC may differ. -/
def OnlyRegsPc (ds : List Reg) (s t : State) : Prop :=
  RegsKept ds s t ∧ t.cond = s.cond ∧ MemoryKept [] s t ∧ ControlKept s t ∧ PortsKept s t

/-- t is s after an instrumented load of the word at ea into dr: the value is MemRead's, COND follows it, every other
register and PC are kept, and memory and ports are as MemRead(ea) leaves them: unchanged unless ea is KBSR_ADDR, where
only KBSR and KBDR and the console input may change (spec/20_memory.md R78, R81). -/
def Loaded (dr : Reg) (ea : Word) (s t : State) : Prop :=
  t.reg dr = (s.memRead ea).1 ∧ t.cond = condOf (s.memRead ea).1 ∧ RegsKept [dr] s t ∧ t.pc = s.pc ∧ ControlKept s t ∧
  MemoryKept [] (s.memRead ea).2 t ∧ PortsKept (s.memRead ea).2 t ∧
  (ea ≠ kbsrAddr → t.reg dr = s.rawRead ea ∧ MemoryKept [] s t ∧ PortsKept s t) ∧
  (ea = kbsrAddr → MemoryKept [kbsrAddr, kbdrAddr] s t ∧ t.consoleOut = s.consoleOut ∧ t.log = s.log)

/-- t is s after an instrumented store of v at ea: registers, PC, COND, run state and console are kept; where ea is not
the doorbell, ea holds v and every other word is kept; where it is, memory and log are as the dispatch of the stored
word leaves them (R83, R265). -/
def Stored (ea v : Word) (s t : State) : Prop :=
  RegsKept [] s t ∧ t.pc = s.pc ∧ t.cond = s.cond ∧ ControlKept s t ∧ ConsoleKept s t ∧
  (ea ≠ s.cfg.virtioEntry → t.rawRead ea = v ∧ MemoryKept [ea] s t ∧ t.log = s.log) ∧
  (ea = s.cfg.virtioEntry →
    MemoryKept [] ((s.rawWrite ea v).dispatch ea) t ∧ t.log = ((s.rawWrite ea v).dispatch ea).log)

/-- t, the state after v is stored at s's PC, fetches and runs the stored word next. Where PC is the doorbell, the word
fetched is the one the dispatch leaves; where PC is KBSR_ADDR, the one the fetch's own poll leaves (R94, R265, R82). -/
def FetchedNext (v : Word) (s t : State) : Prop :=
  t.pc = s.pc ∧
  (s.pc ≠ s.cfg.virtioEntry → s.pc ≠ kbsrAddr → t.fetch.1 = v ∧
    (s.run = .running → s.held = none → ∀ i, decode v = .ok i → step t = exec i (t.setPc (s.pc + 1#16)))) ∧
  (s.pc = s.cfg.virtioEntry → t.fetch.1 = ((s.rawWrite s.pc v).dispatch s.pc).rawRead s.pc) ∧
  (s.pc = kbsrAddr → t.fetch.1 = ((s.rawWrite kbsrAddr v).memRead kbsrAddr).1)

/-! The block device. -/

/-- The state in which the handler interprets a request of descriptor i after v is stored at the doorbell: AVAIL_FLAGS
and DESC[i].FLAGS are cleared (spec/60_exceptions.md R271). -/
def State.cleared (s : State) (v i : Word) : State :=
  ((s.rawWrite s.cfg.virtioEntry v).rawWrite availFlagsAddr 0#16).rawWrite (descFlagsAddr i) 0#16

/-- Storing v at the doorbell kicks (v[0] = 1), a request of descriptor i is announced and allocated, and its record
at address a, as the handler reads it, is (op, position, length) (R271 to R274, R282). -/
def Announced (s : State) (v i a op position length : Word) : Prop :=
  v.getLsbD 0 = true ∧ s.rawRead availFlagsAddr ≠ 0#16 ∧ s.rawRead availIdxAddr = i ∧ i.toNat < nDesc ∧
  s.rawRead (descFlagsAddr i) ≠ 0#16 ∧ (s.cleared v i).rawRead (descAddr i) = a ∧ (s.cleared v i).rawRead a = op ∧
  (s.cleared v i).rawRead (a + 1#16) = position ∧ (s.cleared v i).rawRead (a + 2#16) = length

/-- The word a request's data has at index k (R282). -/
def dataAddr (a : Word) (k : Nat) : Word := a + 3#16 + BitVec.ofNat 16 k

/-! Strings. -/

/-- The string at address a has n words: M[a .. a+n-1] are not zero and M[a+n] is (spec/43_trap.md R224, R225). -/
def StringAt (s : State) (a : Word) (n : Nat) : Prop :=
  n < 65536 ∧ s.rawRead (a + BitVec.ofNat 16 n) = 0#16 ∧ ∀ k, k < n → s.rawRead (a + BitVec.ofNat 16 k) ≠ 0#16

/-- The words of such a string. -/
def stringWords (s : State) (a : Word) (n : Nat) : List Word :=
  (List.range n).map fun k => s.rawRead (a + BitVec.ofNat 16 k)

/-- No word of memory is zero: a string walk never ends (R225). -/
def NoZeroWord (s : State) : Prop := ∀ a, s.rawRead a ≠ 0#16

end Sys2Proof.Machine
end

