-- ==== Sys2Proof/Certificates/Slice0/Obligations.lean ====
section
/-! DEFINITION. The statements for the provers, from the numbered rules of spec/. In every statement about exec, s is the
state after fetch, so s.pc is the incremented PC (spec/10_state.md R34). -/

open Sys2Proof Sys2Proof.Machine

/-! Widening, flags, decoding. -/

/-- spec/00_scope.md R23: sext_N sets bits N..15 to bit N-1 and keeps the bits below, by the formula given, so that the
signed value is kept; zext_N clears bits N..15. -/
def Obligations.SextWidensZextPads : Prop :=
  ∀ (n : Nat) (v : BitVec n), 1 ≤ n → n < 16 →
    (∀ j, j < 16 → (sext n v).getLsbD j = if j < n then v.getLsbD j else v.getLsbD (n - 1)) ∧
    (sext n v = if v.getLsbD (n - 1) then v.setWidth 16 ||| (0xFFFF#16 <<< n) else v.setWidth 16) ∧
    (sext n v).toInt = v.toInt ∧
    (∀ j, (zext v).getLsbD j = (decide (j < n) && v.getLsbD j))

/-- spec/00_scope.md R26: setcc writes COND by the sign of the value, and nothing else. -/
def Obligations.SetccWritesCondBySign : Prop :=
  ∀ (s : State) (v : Word),
    (v = 0#16 → (s.setcc v).cond = condZro) ∧
    (v.getLsbD 15 = true → (s.setcc v).cond = condNeg) ∧
    (v ≠ 0#16 → v.getLsbD 15 = false → (s.setcc v).cond = condPos) ∧
    OnlyRegsCond [] s (s.setcc v)

/-- spec/30_encoding.md R120, R127, R128: every word is an instruction, and one that has an encoding. The opcode map and
the field positions are the spec's own choice (D44, log entry 16). -/
def Obligations.EveryWordDecodes : Prop :=
  ∀ w : Word, ∃ i, decode w = .ok i ∧ i.wellFormed = true

/-- Decoding the word of a well-formed instruction gives it back, whatever its operands (the layout is the spec's own
choice, D44, log entry 16; the encoder's ignored bits are the model's, log entry 14). -/
def Obligations.DecodeOfEncode : Prop :=
  ∀ i : Instr, i.wellFormed = true → decode (encode i) = .ok i

/-- spec/opcode_table.json: a word that matches a row under its mask is that row's instruction, its operands the row's
fields (spec/30_encoding.md R113 to R119, R122 to R125; the layout is the spec's own choice, D44, log entry 16). -/
def Obligations.TableRowsDecode : Prop :=
  ∀ w : Word,
    let d := Reg.ofBits (field w 9 3)
    let b := Reg.ofBits (field w 6 3)
    let off9 := sext 9 (field w 0 9)
    let off6 := sext 6 (field w 0 6)
    (w &&& 0xF020#16 = 0x1000#16 → decode w = .ok (.add d b (Reg.ofBits (field w 0 3)))) ∧
    (w &&& 0xF020#16 = 0x1020#16 → decode w = .ok (.addi d b (sext 5 (field w 0 5)))) ∧
    (w &&& 0xF020#16 = 0x5000#16 → decode w = .ok (.and d b (Reg.ofBits (field w 0 3)))) ∧
    (w &&& 0xF020#16 = 0x5020#16 → decode w = .ok (.andi d b (sext 5 (field w 0 5)))) ∧
    (w &&& 0xF000#16 = 0x9000#16 → decode w = .ok (.not d b)) ∧
    (w &&& 0xF000#16 = 0x0000#16 → decode w = .ok (.br (w.getLsbD 11) (w.getLsbD 10) (w.getLsbD 9) off9)) ∧
    (w &&& 0xF000#16 = 0xC000#16 → decode w = .ok (.jmp b)) ∧
    (w &&& 0xF800#16 = 0x4800#16 → decode w = .ok (.jsr (sext 11 (field w 0 11)))) ∧
    (w &&& 0xF800#16 = 0x4000#16 → decode w = .ok (.jsrr b)) ∧
    (w &&& 0xF000#16 = 0x2000#16 → decode w = .ok (.ld d off9)) ∧
    (w &&& 0xF000#16 = 0xA000#16 → decode w = .ok (.ldi d off9)) ∧
    (w &&& 0xF000#16 = 0x6000#16 → decode w = .ok (.ldr d b off6)) ∧
    (w &&& 0xF000#16 = 0xE000#16 → decode w = .ok (.lea d off9)) ∧
    (w &&& 0xF000#16 = 0x3000#16 → decode w = .ok (.st d off9)) ∧
    (w &&& 0xF000#16 = 0xB000#16 → decode w = .ok (.sti d off9)) ∧
    (w &&& 0xF000#16 = 0x7000#16 → decode w = .ok (.str d b off6)) ∧
    (w &&& 0xF000#16 = 0xF000#16 → decode w = .ok (.trap (field w 0 8))) ∧
    (w &&& 0xF000#16 = 0x8000#16 → decode w = .ok (.rti (field w 0 12))) ∧
    (w &&& 0xF000#16 = 0xD000#16 → decode w = .ok (.res (field w 0 12)))

/-- spec/30_encoding.md R126 (the spec's own choice, D6, log entry 16): the ignored bits of ADD and AND (register), NOT,
JMP, JSRR and TRAP may have any value. -/
def Obligations.IgnoredBitsIgnored : Prop :=
  ∀ w x : Word,
    (w &&& 0xF020#16 = 0x1000#16 → decode (w ^^^ (x &&& 0x0018#16)) = decode w) ∧
    (w &&& 0xF020#16 = 0x5000#16 → decode (w ^^^ (x &&& 0x0018#16)) = decode w) ∧
    (w &&& 0xF000#16 = 0x9000#16 → decode (w ^^^ (x &&& 0x003F#16)) = decode w) ∧
    (w &&& 0xF000#16 = 0xC000#16 → decode (w ^^^ (x &&& 0x0E3F#16)) = decode w) ∧
    (w &&& 0xF800#16 = 0x4000#16 → decode (w ^^^ (x &&& 0x063F#16)) = decode w) ∧
    (w &&& 0xF000#16 = 0xF000#16 → decode (w ^^^ (x &&& 0x0F00#16)) = decode w)

/-- Words that spec/40_operate.md to spec/44_reserved.md give as examples decode to the instructions they are given for. -/
def Obligations.ExampleWordsDecode : Prop :=
  decode 0x1443#16 = .ok (.add .r2 .r1 .r3) ∧ decode 0x103E#16 = .ok (.addi .r0 .r0 0xFFFE#16) ∧
  decode 0x92BF#16 = .ok (.not .r1 .r2) ∧ decode 0x0402#16 = .ok (.br false true false 2#16) ∧
  decode 0x40C0#16 = .ok (.jsrr .r3) ∧ decode 0x697F#16 = .ok (.ldr .r4 .r5 0xFFFF#16) ∧
  decode 0xB201#16 = .ok (.sti .r1 1#16) ∧ decode 0xF025#16 = .ok (.trap 0x25#8) ∧
  decode 0x8000#16 = .ok (.rti 0#12) ∧ decode 0xDFFF#16 = .ok (.res 0xFFF#12)

/-! The step. -/

/-- spec/60_exceptions.md R263, spec/10_state.md R34: a running machine that is not held fetches the word at PC by
MemRead (R82: the spec's own choice, D5, log entry 16), increments PC, and runs the instruction the word decodes to; away
from KBSR_ADDR the fetch reads the stored word and changes nothing but PC. -/
def Obligations.StepRunsDecodedInstruction : Prop :=
  ∀ (s : State) (i : Instr), s.run = .running → s.held = none → decode (s.memRead s.pc).1 = .ok i →
    step s = exec i ((s.memRead s.pc).2.setPc (s.pc + 1#16)) ∧
    (s.pc ≠ kbsrAddr → (s.memRead s.pc).1 = s.rawRead s.pc ∧ step s = exec i (s.setPc (s.pc + 1#16)))

/-- spec/70_reset_and_hazards.md R350: a store to the next instruction's address changes what executes next, at every
address and by every store form; s is the state after the fetch of the store, so s.pc is the next instruction's address.
That a fetch at KBSR_ADDR polls is the spec's own choice (D5, log entry 16). -/
def Obligations.StoredWordIsFetchedNext : Prop :=
  ∀ (s : State) (sr base : Reg) (off : Word), Memory.wf s.mem = true →
    (s.pcRel off = s.pc → ∃ t, exec (.st sr off) s = .next t ∧ FetchedNext (s.reg sr) s t) ∧
    ((s.indirect off).1 = s.pc → ∃ t, exec (.sti sr off) s = .next t ∧ FetchedNext (s.reg sr) (s.indirect off).2 t) ∧
    (s.baseRel base off = s.pc → ∃ t, exec (.str sr base off) s = .next t ∧ FetchedNext (s.reg sr) s t)

/-- A word placed by withFetchWord is what the next step runs (log entry 17: the model's own load operation), away from
KBSR_ADDR. -/
def Obligations.PlacedWordRunsNext : Prop :=
  ∀ (s : State) (w : Word) (i : Instr), Memory.wf s.mem = true → s.pc ≠ kbsrAddr → decode w = .ok i →
    step (s.withFetchWord 16 w.toNat) = exec i ((s.withFetchWord 16 w.toNat).setPc (s.pc + 1#16)) ∧
    RegsKept [] s (s.withFetchWord 16 w.toNat) ∧ MemoryKept [s.pc] s (s.withFetchWord 16 w.toNat)

/-! The whole machine. -/

/-- spec/10_state.md R43: RUN starts RUNNING; only TRAP HALT leads to HALTED, only RTI and RES to ABORTED; HALTED and
ABORTED are absorbing, a step there does nothing and fetches nothing. That the model answers the same state there, where
the spec has no transition, is the model's choice (log entry 12). -/
def Obligations.RunStateChanges : Prop :=
  State.reset.run = .running ∧
  (∀ s : State, s.run = .halted ∨ s.run = .aborted → step s = .next s) ∧
  (∀ s t : State, s.run = .running → step s = .next t →
    (t.run = .halted → s.held = none ∧ decode s.fetch.1 = .ok (.trap 0x25#8)) ∧
    (t.run = .aborted → s.held = none ∧ ∃ low, decode s.fetch.1 = .ok (.rti low) ∨ decode s.fetch.1 = .ok (.res low)))

/-- spec/10_state.md R37, R40: every step keeps COND at one of its three values. Their bits are the spec's own choice
(R37, log entry 16). -/
def Obligations.StepKeepsCondLegal : Prop :=
  ∀ s t : State, CondLegal s.cond → step s = .next t → CondLegal t.cond

/-- Every step keeps memory in its canonical form, so that equal memories are equal data (log entries 1 and 2). -/
def Obligations.StepKeepsMemoryForm : Prop :=
  ∀ s t : State, Memory.wf s.mem = true → step s = .next t → Memory.wf t.mem = true

/-- spec/10_state.md R45 (D29, log entry 16) and R49: every step keeps the abort record exactly on an abort and a hold
only while running; a record once written stays. -/
def Obligations.StepKeepsAbortRecord : Prop :=
  ∀ s t : State, AbortRecorded s → HeldWhileRunning s → step s = .next t →
    AbortRecorded t ∧ HeldWhileRunning t ∧ ∀ info, s.abortInfo = some info → t.abortInfo = some info

/-- The reset state meets the invariants that every step keeps. -/
def Obligations.ResetMeetsInvariants : Prop := State.reset.Inv

/-- spec/10_state.md R38: only the instructions listed there change COND. The loads and LEA are on the list by D7, GETC
and IN by D8, and only where TRAP_IN_SETS_FLAGS is set (the spec's own choices, log entry 16). -/
def Obligations.OnlyListedInstructionsWriteCond : Prop :=
  ∀ (i : Instr) (s t : State), exec i s = .next t →
    match i with
    | .add dr _ _ | .addi dr _ _ | .and dr _ _ | .andi dr _ _ | .not dr _
    | .ld dr _ | .ldi dr _ | .ldr dr _ _ | .lea dr _ => t.cond = condOf (t.reg dr)
    | .trap v =>
      t.cond = s.cond ∨ ((v = 0x20#8 ∨ v = 0x23#8) ∧ s.cfg.trapInSetsFlags = true ∧ t.cond = condOf (t.reg .r0))
    | .br _ _ _ _ | .jmp _ | .jsr _ | .jsrr _ | .st _ _ | .sti _ _ | .str _ _ _ | .rti _ | .res _ => t.cond = s.cond

/-- spec/10_state.md R39: only BR reads COND. Changing COND before any other instruction changes nothing after it but
COND itself, which the instruction either writes, to the same value, or leaves; the same holds of the fetch, of a held
input service (the hold is the model's own form, log entry 9) and of the host's accesses, console supply (log entry 7),
external stop (log entry 20) and image load. -/
def Obligations.OnlyBrReadsCond : Prop :=
  (∀ (i : Instr) (s : State) (c : Word), (∀ n z p off, i ≠ .br n z p off) →
    (∀ t, exec i s = .next t → exec i (s.setCond c) = .next t ∨ exec i (s.setCond c) = .next (t.setCond c)) ∧
    (∀ f, exec i s = .fault f → exec i (s.setCond c) = .fault f)) ∧
  (∀ (s : State) (c : Word), (s.setCond c).fetch = (s.fetch.1, s.fetch.2.setCond c)) ∧
  (∀ (s : State) (c : Word) (svc : InputService), (s.setCond c).inputService svc = s.inputService svc ∨
    (s.setCond c).inputService svc = (s.inputService svc).setCond c) ∧
  (∀ (s : State) (c a v : Word), (s.setCond c).hostRead a = s.hostRead a ∧
    (s.setCond c).hostWrite a v = (s.hostWrite a v).map (fun t => t.setCond c) ∧
    (s.setCond c).hostMemWrite a v = (s.hostMemWrite a v).map (fun t => t.setCond c) ∧
    (s.setCond c).exitStatus = s.exitStatus ∧
    (s.setCond c).externalStop = s.externalStop.map (fun q => (q.1.setCond c, q.2))) ∧
  (∀ (s : State) (c : Word) (events : List ConsoleEvent), (s.setCond c).supply events = (s.supply events).setCond c ∧
    (s.setCond c).endInput = s.endInput.setCond c) ∧
  (∀ (s : State) (c : Word) (image : List Byte),
    (s.setCond c).loadImage image = (s.loadImage image).map (fun t => t.setCond c))

/-- spec/10_state.md R30: the parameters are no state; no step changes them (log entry 3). -/
def Obligations.StepKeepsParameters : Prop :=
  ∀ s t : State, step s = .next t → t.cfg = s.cfg

/-- spec/10_state.md R48 to R50, R52: a step consumes console input from its front and only adds to the console output
and the log, in order (the lists are the model's form of the ports, log entries 7 and 10). -/
def Obligations.StepUsesPortsInOrder : Prop :=
  ∀ s t : State, step s = .next t →
    t.consoleIn <:+ s.consoleIn ∧ t.consoleEnded = s.consoleEnded ∧ s.consoleOut <+: t.consoleOut ∧ s.log <+: t.log

/-- spec/20_memory.md R89, spec/60_exceptions.md R260, spec/43_trap.md R225: no step of the model is refused, and the only
way one has no next state is a string walk over a memory with no zero word, in PUTS or PUTSP (log entry 11; their vectors
are the spec's own choice, D9, log entry 16). That a next state is answered at HALTED and ABORTED (log entry 12) and in a
held step (log entry 9) is the model's choice: spec/10_state.md R43 and R49 say that step has no transition there. -/
def Obligations.OnlyUnendingStringsStop : Prop :=
  ∀ s : State, (∃ t, step s = .next t) ∨
    (step s = .fault .stringNeverEnds ∧ s.run = .running ∧ s.held = none ∧ NoZeroWord s.fetch.2 ∧
      (decode s.fetch.1 = .ok (.trap 0x22#8) ∨ decode s.fetch.1 = .ok (.trap 0x24#8)))

/-! Operate. -/

/-- spec/40_operate.md R150, R155: ADD (register) writes the sum modulo 2^16 of the registers' values before it, COND
from the sum, and nothing else. -/
def Obligations.AddRegisterEffect : Prop :=
  ∀ (dr sr1 sr2 : Reg) (s : State), ∃ t, exec (.add dr sr1 sr2) s = .next t ∧
    (t.reg dr).toNat = ((s.reg sr1).toNat + (s.reg sr2).toNat) % 65536 ∧ t.cond = condOf (t.reg dr) ∧
    OnlyRegsCond [dr] s t

/-- spec/40_operate.md R151: ADD (immediate) adds the widened immediate modulo 2^16, COND from the sum, nothing else. -/
def Obligations.AddImmediateEffect : Prop :=
  ∀ (dr sr1 : Reg) (imm5 : Word) (s : State), ∃ t, exec (.addi dr sr1 imm5) s = .next t ∧
    (t.reg dr).toNat = ((s.reg sr1).toNat + imm5.toNat) % 65536 ∧ t.cond = condOf (t.reg dr) ∧ OnlyRegsCond [dr] s t

/-- spec/40_operate.md R152: AND (register) is bitwise, COND from the result, nothing else. -/
def Obligations.AndRegisterEffect : Prop :=
  ∀ (dr sr1 sr2 : Reg) (s : State), ∃ t, exec (.and dr sr1 sr2) s = .next t ∧
    (∀ j, (t.reg dr).getLsbD j = ((s.reg sr1).getLsbD j && (s.reg sr2).getLsbD j)) ∧ t.cond = condOf (t.reg dr) ∧
    OnlyRegsCond [dr] s t

/-- spec/40_operate.md R153: AND (immediate) is bitwise with the widened immediate, COND from the result, nothing
else. -/
def Obligations.AndImmediateEffect : Prop :=
  ∀ (dr sr1 : Reg) (imm5 : Word) (s : State), ∃ t, exec (.andi dr sr1 imm5) s = .next t ∧
    (∀ j, (t.reg dr).getLsbD j = ((s.reg sr1).getLsbD j && imm5.getLsbD j)) ∧ t.cond = condOf (t.reg dr) ∧
    OnlyRegsCond [dr] s t

/-- spec/40_operate.md R154: NOT complements the sixteen bits, COND from the result, nothing else. -/
def Obligations.NotEffect : Prop :=
  ∀ (dr sr : Reg) (s : State), ∃ t, exec (.not dr sr) s = .next t ∧
    (∀ j, j < 16 → (t.reg dr).getLsbD j = !(s.reg sr).getLsbD j) ∧ t.cond = condOf (t.reg dr) ∧ OnlyRegsCond [dr] s t

/-! Control. -/

/-- spec/41_control.md R170: BR adds its offset to the incremented PC exactly when one of its condition bits is set
whose flag COND shows; it changes nothing but PC; with all three bits set and a legal COND it is always taken. COND's bits are the spec's own
choice (R37, log entry 16). -/
def Obligations.BranchEffect : Prop :=
  ∀ (n z p : Bool) (off : Word) (s : State), ∃ t, exec (.br n z p off) s = .next t ∧ OnlyRegsPc [] s t ∧
    ((n = true ∧ s.cond.getLsbD 2 = true) ∨ (z = true ∧ s.cond.getLsbD 1 = true) ∨ (p = true ∧ s.cond.getLsbD 0 = true) →
      t.pc = s.pc + off) ∧
    (¬((n = true ∧ s.cond.getLsbD 2 = true) ∨ (z = true ∧ s.cond.getLsbD 1 = true) ∨
      (p = true ∧ s.cond.getLsbD 0 = true)) → t.pc = s.pc) ∧
    (n = true → z = true → p = true → CondLegal s.cond → t.pc = s.pc + off)

/-- spec/41_control.md R171: a BR with no condition bit set changes nothing, and the zero word is one: a step over it
only increments PC, away from KBSR_ADDR, where the fetch polls. -/
def Obligations.BranchNeverIsNop : Prop :=
  (∀ (off : Word) (s : State), exec (.br false false false off) s = .next s) ∧
  decode 0x0000#16 = .ok (.br false false false 0#16) ∧
  (∀ s : State, s.run = .running → s.held = none → s.pc ≠ kbsrAddr → s.rawRead s.pc = 0x0000#16 →
    step s = .next (s.setPc (s.pc + 1#16)))

/-- spec/41_control.md R172: JMP sets PC to the register's value and changes nothing else. -/
def Obligations.JumpEffect : Prop :=
  ∀ (base : Reg) (s : State), ∃ t, exec (.jmp base) s = .next t ∧ t.pc = s.reg base ∧ OnlyRegsPc [] s t

/-- spec/41_control.md R174: JSR links the incremented PC in R7 and adds its offset to it; nothing else changes. That
the link register is R7 is the spec's own choice (R32, log entry 16). -/
def Obligations.JsrEffect : Prop :=
  ∀ (off : Word) (s : State), ∃ t, exec (.jsr off) s = .next t ∧ t.reg .r7 = s.pc ∧ t.pc = s.pc + off ∧
    OnlyRegsPc [.r7] s t

/-- spec/41_control.md R175: JSRR links the incremented PC in R7 and jumps to the register's value read after that
write, so JSRR R7 goes on at the incremented PC; nothing else changes. That the link register is R7 is the spec's own
choice (R32, log entry 16). -/
def Obligations.JsrrEffect : Prop :=
  ∀ (base : Reg) (s : State), ∃ t, exec (.jsrr base) s = .next t ∧ t.reg .r7 = s.pc ∧
    (base ≠ .r7 → t.pc = s.reg base) ∧ (base = .r7 → t.pc = s.pc) ∧ OnlyRegsPc [.r7] s t

/-! Loads and stores. -/

/-- spec/42_load_store.md R190: LD loads by MemRead from the incremented PC plus the offset. COND follows the loaded
value by D7 (the spec's own choice, log entry 16). -/
def Obligations.LdEffect : Prop :=
  ∀ (dr : Reg) (off : Word) (s : State), ∃ t, exec (.ld dr off) s = .next t ∧ Loaded dr (s.pc + off) s t

/-- spec/42_load_store.md R191: LDI makes two MemReads in order, the pointer's and the datum's. COND by D7 (log entry
16). -/
def Obligations.LdiEffect : Prop :=
  ∀ (dr : Reg) (off : Word) (s : State), ∃ t, exec (.ldi dr off) s = .next t ∧
    Loaded dr (s.memRead (s.pc + off)).1 (s.memRead (s.pc + off)).2 t ∧
    RegsKept [dr] s t ∧ t.pc = s.pc ∧ ControlKept s t ∧ MemoryKept [kbsrAddr, kbdrAddr] s t ∧
    t.consoleOut = s.consoleOut ∧ t.log = s.log ∧
    (s.pc + off ≠ kbsrAddr → s.rawRead (s.pc + off) ≠ kbsrAddr →
      t.reg dr = s.rawRead (s.rawRead (s.pc + off)) ∧ MemoryKept [] s t ∧ PortsKept s t)

/-- spec/42_load_store.md R192: LDR loads by MemRead from the base register plus the offset; the base is read before the
write. COND by D7 (log entry 16). -/
def Obligations.LdrEffect : Prop :=
  ∀ (dr base : Reg) (off : Word) (s : State), ∃ t, exec (.ldr dr base off) s = .next t ∧
    Loaded dr (s.reg base + off) s t

/-- spec/42_load_store.md R193: LEA writes the address itself, with no memory access. COND by D7 (log entry 16). -/
def Obligations.LeaEffect : Prop :=
  ∀ (dr : Reg) (off : Word) (s : State), ∃ t, exec (.lea dr off) s = .next t ∧ t.reg dr = s.pc + off ∧
    t.cond = condOf (s.pc + off) ∧ OnlyRegsCond [dr] s t

/-- spec/42_load_store.md R194: ST stores by MemWrite at the incremented PC plus the offset. -/
def Obligations.StEffect : Prop :=
  ∀ (sr : Reg) (off : Word) (s : State), Memory.wf s.mem = true →
    ∃ t, exec (.st sr off) s = .next t ∧ Stored (s.pc + off) (s.reg sr) s t

/-- spec/42_load_store.md R195: STI reads the pointer by MemRead, then stores by MemWrite where it points. -/
def Obligations.StiEffect : Prop :=
  ∀ (sr : Reg) (off : Word) (s : State), Memory.wf s.mem = true →
    ∃ t, exec (.sti sr off) s = .next t ∧
      Stored (s.memRead (s.pc + off)).1 (s.reg sr) (s.memRead (s.pc + off)).2 t ∧
      RegsKept [] s t ∧ t.pc = s.pc ∧ t.cond = s.cond ∧ ControlKept s t ∧ t.consoleOut = s.consoleOut ∧
      (s.pc + off ≠ kbsrAddr → Stored (s.rawRead (s.pc + off)) (s.reg sr) s t)

/-- spec/42_load_store.md R196: STR stores by MemWrite at the base register plus the offset. -/
def Obligations.StrEffect : Prop :=
  ∀ (sr base : Reg) (off : Word) (s : State), Memory.wf s.mem = true →
    ∃ t, exec (.str sr base off) s = .next t ∧ Stored (s.reg base + off) (s.reg sr) s t

/-! The accessors. -/

/-- spec/20_memory.md R78: MemRead of KBSR_ADDR polls the console: a waiting character sets KBSR's bit 15 and goes to
KBDR; none clears KBDR, and KBSR too where KBSR_CLEAR_ON_EMPTY is set, and consumes no character; nothing else changes. A
MemRead elsewhere has no
side effect. The stored word after the side effect is answered. KBDR's address and KBSR after an empty poll are the
spec's own choices (D15, D16, log entry 16); the input as a list is the model's form (log entry 7). -/
def Obligations.MemReadPollsKeyboard : Prop :=
  ∀ (s : State) (a : Word), Memory.wf s.mem = true →
    (a ≠ kbsrAddr → s.memRead a = (s.rawRead a, s)) ∧
    (a = kbsrAddr →
      (s.memRead a).1 = (s.memRead a).2.rawRead kbsrAddr ∧ MemoryKept [kbsrAddr, kbdrAddr] s (s.memRead a).2 ∧
      RegsKept [] s (s.memRead a).2 ∧ (s.memRead a).2.pc = s.pc ∧ (s.memRead a).2.cond = s.cond ∧
      ControlKept s (s.memRead a).2 ∧ (s.memRead a).2.consoleEnded = s.consoleEnded ∧
      (s.memRead a).2.consoleOut = s.consoleOut ∧ (s.memRead a).2.log = s.log ∧
      (∀ c rest, s.consoleIn = .key c :: rest →
        (s.memRead a).2.rawRead kbsrAddr = s.rawRead kbsrAddr ||| 0x8000#16 ∧
        (s.memRead a).2.rawRead kbdrAddr = zext c ∧ (s.memRead a).2.consoleIn = rest) ∧
      (s.consoleIn = [] → (s.memRead a).2.consoleIn = []) ∧
      (∀ rest, s.consoleIn = .quiet :: rest → (s.memRead a).2.consoleIn = rest) ∧
      ((s.consoleIn = [] ∨ ∃ rest, s.consoleIn = .quiet :: rest) →
        (s.memRead a).2.rawRead kbdrAddr = 0#16 ∧
        (s.cfg.kbsrClearOnEmpty = false → (s.memRead a).2.rawRead kbsrAddr = s.rawRead kbsrAddr) ∧
        (s.cfg.kbsrClearOnEmpty = true → (s.memRead a).2.rawRead kbsrAddr = 0#16)))

/-- spec/20_memory.md R83: MemWrite stores the value, then dispatches exactly in the interrupt-vector window
0x0100..0x01FF; outside it the store is all it does. -/
def Obligations.MemWriteStoresThenDispatches : Prop :=
  ∀ (s : State) (a v : Word), Memory.wf s.mem = true →
    (s.rawWrite a v).rawRead a = v ∧
    (0x0100#16 ≤ a ∧ a ≤ 0x01FF#16 → s.memWrite a v = (s.rawWrite a v).dispatch a) ∧
    (¬(0x0100#16 ≤ a ∧ a ≤ 0x01FF#16) →
      Stored a v s (s.memWrite a v) ∧ MemoryKept [a] s (s.memWrite a v) ∧ (s.memWrite a v).rawRead a = v)

/-- spec/60_exceptions.md R269: a MemWrite to an IVT-window address other than VIRTIO_ENTRY stores the value and does
nothing else. -/
def Obligations.OtherWindowStoresArePlain : Prop :=
  ∀ (s : State) (a v : Word), Memory.wf s.mem = true → 0x0100#16 ≤ a → a ≤ 0x01FF#16 → a ≠ s.cfg.virtioEntry →
    (s.memWrite a v).rawRead a = v ∧ MemoryKept [a] s (s.memWrite a v) ∧ RegsKept [] s (s.memWrite a v) ∧
    (s.memWrite a v).pc = s.pc ∧ (s.memWrite a v).cond = s.cond ∧ ControlKept s (s.memWrite a v) ∧
    PortsKept s (s.memWrite a v)

/-! The block device. -/

/-- spec/60_exceptions.md R272 to R274, R277, R278 (their decisions D24, D26, D28: log entry 16): a store at the doorbell
without the kick bit or without an announcement is a plain store; with a bad index or an unallocated descriptor it also
clears AVAIL_FLAGS, with an unsupported operation the descriptor's FLAGS too, and nothing else. Whether a dropped request is
reported the spec says both ways, and the model leaves it to the parameter logsDroppedRequests (R264, log entry 19). -/
def Obligations.DroppedKicks : Prop :=
  ∀ (s : State) (v : Word), Memory.wf s.mem = true →
    let e := s.cfg.virtioEntry
    let t := s.memWrite e v
    let i := s.rawRead availIdxAddr
    RegsKept [] s t ∧ t.pc = s.pc ∧ t.cond = s.cond ∧ ControlKept s t ∧ ConsoleKept s t ∧
    (v.getLsbD 0 = false → t = s.rawWrite e v) ∧
    (v.getLsbD 0 = true → s.rawRead availFlagsAddr = 0#16 → t = s.rawWrite e v) ∧
    (v.getLsbD 0 = true → s.rawRead availFlagsAddr ≠ 0#16 → (10 ≤ i.toNat ∨ s.rawRead (descFlagsAddr i) = 0#16) →
      MemoryKept [e, availFlagsAddr] s t ∧ t.rawRead e = v ∧ t.rawRead availFlagsAddr = 0#16 ∧
      t.log = s.log ++ if s.cfg.logsDroppedRequests then [.noAllocatedDescriptor] else []) ∧
    (∀ a op position length, Announced s v i a op position length → op ≠ 0x0000#16 → op ≠ 0x0001#16 →
      MemoryKept [e, availFlagsAddr, descFlagsAddr i] s t ∧ t.rawRead e = v ∧ t.rawRead availFlagsAddr = 0#16 ∧
      t.rawRead (descFlagsAddr i) = 0#16 ∧
      t.log = s.log ++ if s.cfg.logsDroppedRequests then [.unsupportedOperation] else [])

/-- spec/60_exceptions.md R275 (its decisions D21 to D24, D28: log entry 16): a serviced READ fills the request's data
words with BLK_SYNTH, sets the used ring, marks the descriptor allocated and answers the completion code; every other
word is kept, and nothing is logged. -/
def Obligations.BlockReadOutcome : Prop :=
  ∀ (s : State) (v i a position length : Word), Memory.wf s.mem = true →
    Announced s v i a 0x0000#16 position length →
    let e := s.cfg.virtioEntry
    let t := s.memWrite e v
    t.rawRead usedFlagsAddr = 0x0001#16 ∧ t.rawRead usedIdxAddr = i ∧ t.rawRead (descFlagsAddr i) = 0x0001#16 ∧
    t.rawRead e = 0x0002#16 ∧ t.log = s.log ∧
    (∀ k, k < length.toNat → dataAddr a k ∉ [usedFlagsAddr, usedIdxAddr, descFlagsAddr i, e] →
      t.rawRead (dataAddr a k) = Config.blkSynth position length (BitVec.ofNat 16 k)) ∧
    ((∀ k, k < length.toNat → dataAddr a k ≠ availFlagsAddr) → t.rawRead availFlagsAddr = 0#16) ∧
    (∀ x, x ∉ [e, availFlagsAddr, usedFlagsAddr, usedIdxAddr, descFlagsAddr i] →
      (∀ k, k < length.toNat → x ≠ dataAddr a k) → t.rawRead x = s.rawRead x)

/-- spec/60_exceptions.md R276 (its decisions D21, D24, D36: log entry 16): a serviced WRITE logs the payload, clears
AVAIL_FLAGS and the descriptor's FLAGS and answers the completion code; every other word is kept. -/
def Obligations.BlockWriteOutcome : Prop :=
  ∀ (s : State) (v i a position length : Word), Memory.wf s.mem = true →
    Announced s v i a 0x0001#16 position length →
    let e := s.cfg.virtioEntry
    let t := s.memWrite e v
    t.rawRead e = 0x0002#16 ∧ t.rawRead availFlagsAddr = 0#16 ∧ t.rawRead (descFlagsAddr i) = 0#16 ∧
    MemoryKept [e, availFlagsAddr, descFlagsAddr i] s t ∧
    t.log = s.log ++ [.blkWrite position length
      ((List.range length.toNat).map fun k => (s.cleared v i).rawRead (dataAddr a k))]

/-- spec/60_exceptions.md R289: what one dispatch may write; with the record's address a and length as the handler reads
them. Registers, COND, PC and RUN are never written. The spec marks the rule as its own inference, over its own ring
layout (D18, D21, log entry 16). -/
def Obligations.DispatchFootprint : Prop :=
  ∀ (s : State) (v : Word), Memory.wf s.mem = true →
    let e := s.cfg.virtioEntry
    let i := s.rawRead availIdxAddr
    let a := (s.cleared v i).rawRead (descAddr i)
    let length := (s.cleared v i).rawRead (a + 2#16)
    (∀ x, x ∉ [e, availFlagsAddr, usedFlagsAddr, usedIdxAddr, descFlagsAddr i] →
      (∀ k, k < length.toNat → x ≠ dataAddr a k) → (s.memWrite e v).rawRead x = s.rawRead x) ∧
    RegsKept [] s (s.memWrite e v) ∧ (s.memWrite e v).pc = s.pc ∧ (s.memWrite e v).cond = s.cond ∧
    ControlKept s (s.memWrite e v) ∧ ConsoleKept s (s.memWrite e v)

/-- spec/60_exceptions.md R288: a WRITE stores nothing (its data words, and every word but the doorbell and the flags it
clears, are kept), and a later READ of the same position and length, whatever was written before, answers
BLK_SYNTH(position, length, k) in its data words that the used ring, the descriptor's FLAGS and the doorbell do not
overlie. -/
def Obligations.StorageIsPlaceholder : Prop :=
  ∀ (s u : State) (v v' i j a b position length : Word), Memory.wf s.mem = true → Memory.wf u.mem = true →
    Announced s v i a 0x0001#16 position length → Announced u v' j b 0x0000#16 position length →
    (∀ x, x ∉ [s.cfg.virtioEntry, availFlagsAddr, descFlagsAddr i] →
      (s.memWrite s.cfg.virtioEntry v).rawRead x = s.rawRead x) ∧
    (∀ k, k < length.toNat → dataAddr b k ∉ [usedFlagsAddr, usedIdxAddr, descFlagsAddr j, u.cfg.virtioEntry] →
      (u.memWrite u.cfg.virtioEntry v').rawRead (dataAddr b k) =
        Config.blkSynth position length (BitVec.ofNat 16 k))

/-! TRAP. -/

/-- spec/43_trap.md R220, R229, R230: whenever TRAP completes, R7 holds the incremented PC, PC goes on there, R1..R6 and
memory are kept; only GETC and IN write R0, COND or the hold, and only HALT writes RUN. The vector numbers and R7 are the
spec's own choice (D9, R32, log entry 16), the hold is the model's field (log entry 9). -/
def Obligations.TrapLinksAndGoesOn : Prop :=
  ∀ (v : Byte) (s t : State), exec (.trap v) s = .next t →
    t.reg .r7 = s.pc ∧ t.pc = s.pc ∧ RegsKept [.r0, .r7] s t ∧ MemoryKept [] s t ∧ t.abortInfo = s.abortInfo ∧
    t.cfg = s.cfg ∧
    (v ≠ 0x20#8 → v ≠ 0x23#8 →
      t.reg .r0 = s.reg .r0 ∧ t.cond = s.cond ∧ t.held = s.held ∧ t.consoleIn = s.consoleIn) ∧
    (v ≠ 0x25#8 → t.run = s.run)

/-- spec/43_trap.md R222, R226, spec/10_state.md R49 (D8, D9, D11, D14: log entry 16): GETC and IN put the next character
in R0, zero-extended, or 0xFFFF at end of input; COND follows it where TRAP_IN_SETS_FLAGS is set; IN first emits the
prompt and then echoes. With nothing supplied the step is held, R0, COND and the input kept. -/
def Obligations.InputServicesReadR0 : Prop :=
  ∀ (v : Byte) (s : State), v = 0x20#8 ∨ v = 0x23#8 →
    ∃ t, exec (.trap v) s = .next t ∧ t.log = s.log ∧ t.consoleEnded = s.consoleEnded ∧ t.reg .r7 = s.pc ∧
      t.pc = s.pc ∧ RegsKept [.r0, .r7] s t ∧ MemoryKept [] s t ∧ t.run = s.run ∧ t.abortInfo = s.abortInfo ∧
      t.cfg = s.cfg ∧
      (∀ x : Word, (∃ c rest, nextKey s.consoleIn = some (c, rest) ∧ x = zext c) ∨
          (nextKey s.consoleIn = none ∧ s.consoleEnded = true ∧ x = 0xFFFF#16) →
        t.reg .r0 = x ∧ t.held = none ∧ t.cond = (if s.cfg.trapInSetsFlags then condOf x else s.cond) ∧
        t.consoleOut = if v = 0x20#8 then s.consoleOut else s.consoleOut ++ s.cfg.inPrompt ++ [field x 0 8]) ∧
      (∀ c rest, nextKey s.consoleIn = some (c, rest) → t.consoleIn = rest) ∧
      (nextKey s.consoleIn = none → t.consoleIn = s.consoleIn) ∧
      (nextKey s.consoleIn = none → s.consoleEnded = false →
        t.held = some (if v = 0x20#8 then .getc else .inEcho) ∧ t.reg .r0 = s.reg .r0 ∧ t.cond = s.cond ∧
        t.consoleOut = if v = 0x20#8 then s.consoleOut else s.consoleOut ++ s.cfg.inPrompt)

/-- spec/10_state.md R49, spec/60_exceptions.md R305, spec/43_trap.md R222, R226, R230 (the hold as a field of State: log
entry 9; D8, D11, D42: log entry 16): a held step keeps all state until the host supplies a character or ends the input,
and then completes: R0 receives the value, COND follows it where TRAP_IN_SETS_FLAGS is set, IN echoes its low 8 bits, and
all else is kept. While it is held the host touches no memory (R51). -/
def Obligations.HeldStepWaitsForInput : Prop :=
  ∀ (s : State) (svc : InputService), s.run = .running → s.held = some svc →
    (nextKey s.consoleIn = none → s.consoleEnded = false → step s = .next s) ∧
    (∀ (x : Word) (rest : List ConsoleEvent),
      (∃ c, nextKey s.consoleIn = some (c, rest) ∧ x = zext c) ∨
        (nextKey s.consoleIn = none ∧ s.consoleEnded = true ∧ x = 0xFFFF#16 ∧ rest = s.consoleIn) →
      ∃ t, step s = .next t ∧ t.held = none ∧ t.reg .r0 = x ∧ RegsKept [.r0] s t ∧ t.pc = s.pc ∧
        t.cond = (if s.cfg.trapInSetsFlags then condOf x else s.cond) ∧ MemoryKept [] s t ∧
        t.run = s.run ∧ t.abortInfo = s.abortInfo ∧ t.cfg = s.cfg ∧
        t.consoleIn = rest ∧ t.consoleEnded = s.consoleEnded ∧ t.log = s.log ∧
        t.consoleOut = if svc = .inEcho then s.consoleOut ++ [field x 0 8] else s.consoleOut) ∧
    (∀ a v, s.hostRead a = none ∧ s.hostWrite a v = none ∧ s.hostMemWrite a v = none)

/-- spec/43_trap.md R223, R232 (D9, D10, D12: log entry 16): OUT emits the low 8 bits of R0; a vector outside 0x20..0x25
is logged; nothing else changes but R7. -/
def Obligations.OutAndUnknownVectorEffect : Prop :=
  (∀ s : State, ∃ t, exec (.trap 0x21#8) s = .next t ∧ t.consoleOut = s.consoleOut ++ [field (s.reg .r0) 0 8] ∧
    RegsKept [.r7] s t ∧ t.reg .r7 = s.pc ∧ t.pc = s.pc ∧ t.cond = s.cond ∧ MemoryKept [] s t ∧ ControlKept s t ∧
    t.consoleIn = s.consoleIn ∧ t.consoleEnded = s.consoleEnded ∧ t.log = s.log) ∧
  (∀ (v : Byte) (s : State), v.toNat < 0x20 ∨ 0x25 < v.toNat →
    ∃ t, exec (.trap v) s = .next t ∧ t.log = s.log ++ [.unknownTrap v] ∧ RegsKept [.r7] s t ∧ t.reg .r7 = s.pc ∧
      t.pc = s.pc ∧ t.cond = s.cond ∧ MemoryKept [] s t ∧ ControlKept s t ∧ ConsoleKept s t)

/-- spec/43_trap.md R224 (D9, D12, D13: log entry 16): PUTS emits the low byte of each word from R0's address up to the
first zero word, addresses modulo 2^16; the walk is raw, so nothing is polled. -/
def Obligations.PutsEmitsString : Prop :=
  ∀ (s : State) (n : Nat), StringAt s (s.reg .r0) n →
    ∃ t, exec (.trap 0x22#8) s = .next t ∧
      t.consoleOut = s.consoleOut ++ (stringWords s (s.reg .r0) n).map (fun w => field w 0 8) ∧
      RegsKept [.r7] s t ∧ t.reg .r7 = s.pc ∧ t.pc = s.pc ∧ t.cond = s.cond ∧ MemoryKept [] s t ∧ ControlKept s t ∧
      t.consoleIn = s.consoleIn ∧ t.consoleEnded = s.consoleEnded ∧ t.log = s.log

/-- spec/43_trap.md R227 (D9, D12, D13: log entry 16): PUTSP emits for each word its low byte, then its high byte unless
that is zero. -/
def Obligations.PutspEmitsPackedString : Prop :=
  ∀ (s : State) (n : Nat), StringAt s (s.reg .r0) n →
    ∃ t, exec (.trap 0x24#8) s = .next t ∧
      t.consoleOut = s.consoleOut ++ (stringWords s (s.reg .r0) n).flatMap (fun w =>
        field w 0 8 :: if field w 8 8 = 0#8 then [] else [field w 8 8]) ∧
      RegsKept [.r7] s t ∧ t.reg .r7 = s.pc ∧ t.pc = s.pc ∧ t.cond = s.cond ∧ MemoryKept [] s t ∧ ControlKept s t ∧
      t.consoleIn = s.consoleIn ∧ t.consoleEnded = s.consoleEnded ∧ t.log = s.log

/-- spec/43_trap.md R225 (D13, log entries 11 and 16): PUTS and PUTSP stop the machine exactly when no word of memory is
zero. -/
def Obligations.StringServicesStopExactlyOnNoZero : Prop :=
  ∀ (v : Byte) (s : State), v = 0x22#8 ∨ v = 0x24#8 →
    (NoZeroWord s → exec (.trap v) s = .fault .stringNeverEnds) ∧
    (¬NoZeroWord s → ∃ t, exec (.trap v) s = .next t)

/-- spec/43_trap.md R231 (D9, D14: log entry 16): HALT ends the run: RUN is HALTED, PC and R7 hold the incremented PC,
nothing else changes but the message emitted, and no step after it does anything (the same-state answer of such a step is
the model's choice, log entry 12). -/
def Obligations.HaltEndsTheRun : Prop :=
  ∀ s : State, ∃ t, exec (.trap 0x25#8) s = .next t ∧ t.run = .halted ∧ t.reg .r7 = s.pc ∧ t.pc = s.pc ∧
    RegsKept [.r7] s t ∧ t.cond = s.cond ∧ MemoryKept [] s t ∧ t.abortInfo = s.abortInfo ∧
    t.consoleOut = s.consoleOut ++ s.cfg.haltMessage ∧ t.consoleIn = s.consoleIn ∧ t.log = s.log ∧ step t = .next t ∧
    t.exitStatus = some 0

/-! Aborts. -/

/-- spec/44_reserved.md R250, spec/60_exceptions.md R261 (the record: D29, log entry 16): RTI aborts the run and records
its word and address; nothing else changes and no further instruction executes (the same-state answer of a further step is
the model's choice, log entry 12). -/
def Obligations.RtiAborts : Prop :=
  ∀ (low : BitVec 12) (s : State), ∃ t, exec (.rti low) s = .next t ∧ t.run = .aborted ∧
    t.abortInfo = some ⟨.abortRti, 0x8#4 ++ low, s.pc - 1#16⟩ ∧ RegsKept [] s t ∧ t.pc = s.pc ∧ t.cond = s.cond ∧
    MemoryKept [] s t ∧ t.held = s.held ∧ t.cfg = s.cfg ∧ PortsKept s t ∧ step t = .next t

/-- spec/44_reserved.md R251, spec/60_exceptions.md R261 (the record: D29, log entry 16): the reserved opcode aborts the
run likewise, with its own reason (a further step: log entry 12). -/
def Obligations.ResAborts : Prop :=
  ∀ (low : BitVec 12) (s : State), ∃ t, exec (.res low) s = .next t ∧ t.run = .aborted ∧
    t.abortInfo = some ⟨.abortRes, 0xD#4 ++ low, s.pc - 1#16⟩ ∧ RegsKept [] s t ∧ t.pc = s.pc ∧ t.cond = s.cond ∧
    MemoryKept [] s t ∧ t.held = s.held ∧ t.cfg = s.cfg ∧ PortsKept s t ∧ step t = .next t

/-- An aborted step records the word that was fetched and where it was fetched (spec/10_state.md R45; D29, log entry
16). -/
def Obligations.AbortRecordsFetchedWord : Prop :=
  ∀ s t : State, s.run = .running → step s = .next t → t.run = .aborted →
    ∃ reason, t.abortInfo = some ⟨reason, s.fetch.1, s.pc⟩

/-! Reset and the host. -/

/-- spec/10_state.md R33. -/
def Obligations.RegistersResetToZero : Prop := ∀ r, State.reset.reg r = 0x0000#16

/-- spec/10_state.md R56, R42, spec/60_exceptions.md R280 (D3, D18 to D20: log entry 16): the state after reset. -/
def Obligations.ResetState : Prop :=
  State.reset.pc = 0x0000#16 ∧ State.reset.cond = 0x0001#16 ∧ State.reset.run = .running ∧
  State.reset.abortInfo = none ∧
  (∀ i : Nat, i < 10 →
    State.reset.rawRead (0x8003#16 + 4#16 * BitVec.ofNat 16 i) = 0x802B#16 + 128#16 * BitVec.ofNat 16 i ∧
    State.reset.rawRead (0x8004#16 + 4#16 * BitVec.ofNat 16 i) = 128#16 ∧
    State.reset.rawRead (0x8005#16 + 4#16 * BitVec.ofNat 16 i) = 0#16 ∧
    State.reset.rawRead (0x8006#16 + 4#16 * BitVec.ofNat 16 i) = if i < 9 then BitVec.ofNat 16 (i + 1) else 0#16) ∧
  (∀ a : Word, a < 0x8003#16 ∨ 0x802A#16 < a → State.reset.rawRead a = 0#16)

/-- spec/70_reset_and_hazards.md R345, R346 (D32, log entry 16): the image load places the big-endian words from the
origin up, never above 0xFFFF, keeps every other word and all registers, dispatches nothing, and fails exactly on an image
of fewer than two bytes. It is made between steps only (spec/10_state.md R51): that no step is in progress is read from the
hold (the model's own field, log entry 9), and that the load also answers where RUN is HALTED or ABORTED is the model's
choice (log entry 21). -/
def Obligations.ImageLoadPlacesWords : Prop :=
  (∀ (s : State) (o1 o2 : Byte) (bytes : List Byte), Memory.wf s.mem = true → s.held = none →
    ∃ t, s.loadImage (o1 :: o2 :: bytes) = some t ∧
      (∀ (k : Nat) (hi lo : Byte), bytes[2 * k]? = some hi → bytes[2 * k + 1]? = some lo →
        (o1 ++ o2 : Word).toNat + k < 65536 →
        t.rawRead ((o1 ++ o2 : Word) + BitVec.ofNat 16 k) = hi ++ lo) ∧
      (∀ x : Word, x.toNat < (o1 ++ o2 : Word).toNat ∨ (o1 ++ o2 : Word).toNat + bytes.length / 2 ≤ x.toNat →
        t.rawRead x = s.rawRead x) ∧
      RegsKept [] s t ∧ t.pc = s.pc ∧ t.cond = s.cond ∧ ControlKept s t ∧ PortsKept s t) ∧
  (∀ (s : State) (image : List Byte), s.held = none → (s.loadImage image = none ↔ image.length < 2)) ∧
  (∀ (s : State) (image : List Byte), s.held ≠ none → s.loadImage image = none)

/-- spec/60_exceptions.md R283 (D35, log entry 16): FindEmpty answers the lowest unallocated descriptor, and none exactly
when all ten are allocated. -/
def Obligations.FindEmptyIsLowestFree : Prop :=
  ∀ s : State,
    (∀ i, s.findEmpty = some i ↔
      (i < 10 ∧ s.rawRead (descFlagsAddr (BitVec.ofNat 16 i)) = 0#16 ∧
        ∀ j, j < i → s.rawRead (descFlagsAddr (BitVec.ofNat 16 j)) ≠ 0#16)) ∧
    (s.findEmpty = none ↔ ∀ i, i < 10 → s.rawRead (descFlagsAddr (BitVec.ofNat 16 i)) ≠ 0#16)
end

