-- ==== Sys2Proof/Laws/State.lean ====
section
/-! SUPPORT. The fields of a state after each update of Machine/Ops.lean and Machine/Flags.lean: one lemma per field per
update, and for each update of something other than memory or registers what a read of them gives. -/

namespace Sys2Proof.Machine

variable (s : State)

/-! setReg -/

@[simp] theorem State.setReg_regs (r : Reg) (v : Word) : (s.setReg r v).regs = s.regs.set r v := rfl
@[simp] theorem State.setReg_pc (r : Reg) (v : Word) : (s.setReg r v).pc = s.pc := rfl
@[simp] theorem State.setReg_cond (r : Reg) (v : Word) : (s.setReg r v).cond = s.cond := rfl
@[simp] theorem State.setReg_run (r : Reg) (v : Word) : (s.setReg r v).run = s.run := rfl
@[simp] theorem State.setReg_abortInfo (r : Reg) (v : Word) : (s.setReg r v).abortInfo = s.abortInfo := rfl
@[simp] theorem State.setReg_mem (r : Reg) (v : Word) : (s.setReg r v).mem = s.mem := rfl
@[simp] theorem State.setReg_held (r : Reg) (v : Word) : (s.setReg r v).held = s.held := rfl
@[simp] theorem State.setReg_consoleIn (r : Reg) (v : Word) : (s.setReg r v).consoleIn = s.consoleIn := rfl
@[simp] theorem State.setReg_consoleEnded (r : Reg) (v : Word) : (s.setReg r v).consoleEnded = s.consoleEnded := rfl
@[simp] theorem State.setReg_consoleOut (r : Reg) (v : Word) : (s.setReg r v).consoleOut = s.consoleOut := rfl
@[simp] theorem State.setReg_log (r : Reg) (v : Word) : (s.setReg r v).log = s.log := rfl
@[simp] theorem State.setReg_cfg (r : Reg) (v : Word) : (s.setReg r v).cfg = s.cfg := rfl
@[simp] theorem State.setReg_rawRead (r : Reg) (v : Word) (x : Word) : (s.setReg r v).rawRead x = s.rawRead x := rfl

/-! setPc -/

@[simp] theorem State.setPc_regs (v : Word) : (s.setPc v).regs = s.regs := rfl
@[simp] theorem State.setPc_pc (v : Word) : (s.setPc v).pc = v := rfl
@[simp] theorem State.setPc_cond (v : Word) : (s.setPc v).cond = s.cond := rfl
@[simp] theorem State.setPc_run (v : Word) : (s.setPc v).run = s.run := rfl
@[simp] theorem State.setPc_abortInfo (v : Word) : (s.setPc v).abortInfo = s.abortInfo := rfl
@[simp] theorem State.setPc_mem (v : Word) : (s.setPc v).mem = s.mem := rfl
@[simp] theorem State.setPc_held (v : Word) : (s.setPc v).held = s.held := rfl
@[simp] theorem State.setPc_consoleIn (v : Word) : (s.setPc v).consoleIn = s.consoleIn := rfl
@[simp] theorem State.setPc_consoleEnded (v : Word) : (s.setPc v).consoleEnded = s.consoleEnded := rfl
@[simp] theorem State.setPc_consoleOut (v : Word) : (s.setPc v).consoleOut = s.consoleOut := rfl
@[simp] theorem State.setPc_log (v : Word) : (s.setPc v).log = s.log := rfl
@[simp] theorem State.setPc_cfg (v : Word) : (s.setPc v).cfg = s.cfg := rfl
@[simp] theorem State.setPc_reg (v : Word) (q : Reg) : (s.setPc v).reg q = s.reg q := rfl
@[simp] theorem State.setPc_rawRead (v : Word) (x : Word) : (s.setPc v).rawRead x = s.rawRead x := rfl

/-! setCond -/

@[simp] theorem State.setCond_regs (v : Word) : (s.setCond v).regs = s.regs := rfl
@[simp] theorem State.setCond_pc (v : Word) : (s.setCond v).pc = s.pc := rfl
@[simp] theorem State.setCond_cond (v : Word) : (s.setCond v).cond = v := rfl
@[simp] theorem State.setCond_run (v : Word) : (s.setCond v).run = s.run := rfl
@[simp] theorem State.setCond_abortInfo (v : Word) : (s.setCond v).abortInfo = s.abortInfo := rfl
@[simp] theorem State.setCond_mem (v : Word) : (s.setCond v).mem = s.mem := rfl
@[simp] theorem State.setCond_held (v : Word) : (s.setCond v).held = s.held := rfl
@[simp] theorem State.setCond_consoleIn (v : Word) : (s.setCond v).consoleIn = s.consoleIn := rfl
@[simp] theorem State.setCond_consoleEnded (v : Word) : (s.setCond v).consoleEnded = s.consoleEnded := rfl
@[simp] theorem State.setCond_consoleOut (v : Word) : (s.setCond v).consoleOut = s.consoleOut := rfl
@[simp] theorem State.setCond_log (v : Word) : (s.setCond v).log = s.log := rfl
@[simp] theorem State.setCond_cfg (v : Word) : (s.setCond v).cfg = s.cfg := rfl
@[simp] theorem State.setCond_reg (v : Word) (q : Reg) : (s.setCond v).reg q = s.reg q := rfl
@[simp] theorem State.setCond_rawRead (v : Word) (x : Word) : (s.setCond v).rawRead x = s.rawRead x := rfl

/-! setcc -/

@[simp] theorem State.setcc_regs (v : Word) : (s.setcc v).regs = s.regs := rfl
@[simp] theorem State.setcc_pc (v : Word) : (s.setcc v).pc = s.pc := rfl
@[simp] theorem State.setcc_cond (v : Word) : (s.setcc v).cond = condOf v := rfl
@[simp] theorem State.setcc_run (v : Word) : (s.setcc v).run = s.run := rfl
@[simp] theorem State.setcc_abortInfo (v : Word) : (s.setcc v).abortInfo = s.abortInfo := rfl
@[simp] theorem State.setcc_mem (v : Word) : (s.setcc v).mem = s.mem := rfl
@[simp] theorem State.setcc_held (v : Word) : (s.setcc v).held = s.held := rfl
@[simp] theorem State.setcc_consoleIn (v : Word) : (s.setcc v).consoleIn = s.consoleIn := rfl
@[simp] theorem State.setcc_consoleEnded (v : Word) : (s.setcc v).consoleEnded = s.consoleEnded := rfl
@[simp] theorem State.setcc_consoleOut (v : Word) : (s.setcc v).consoleOut = s.consoleOut := rfl
@[simp] theorem State.setcc_log (v : Word) : (s.setcc v).log = s.log := rfl
@[simp] theorem State.setcc_cfg (v : Word) : (s.setcc v).cfg = s.cfg := rfl
@[simp] theorem State.setcc_reg (v : Word) (q : Reg) : (s.setcc v).reg q = s.reg q := rfl
@[simp] theorem State.setcc_rawRead (v : Word) (x : Word) : (s.setcc v).rawRead x = s.rawRead x := rfl

/-! setRegCc -/

@[simp] theorem State.setRegCc_regs (r : Reg) (v : Word) : (s.setRegCc r v).regs = s.regs.set r v := rfl
@[simp] theorem State.setRegCc_pc (r : Reg) (v : Word) : (s.setRegCc r v).pc = s.pc := rfl
@[simp] theorem State.setRegCc_cond (r : Reg) (v : Word) : (s.setRegCc r v).cond = condOf v := rfl
@[simp] theorem State.setRegCc_run (r : Reg) (v : Word) : (s.setRegCc r v).run = s.run := rfl
@[simp] theorem State.setRegCc_abortInfo (r : Reg) (v : Word) : (s.setRegCc r v).abortInfo = s.abortInfo := rfl
@[simp] theorem State.setRegCc_mem (r : Reg) (v : Word) : (s.setRegCc r v).mem = s.mem := rfl
@[simp] theorem State.setRegCc_held (r : Reg) (v : Word) : (s.setRegCc r v).held = s.held := rfl
@[simp] theorem State.setRegCc_consoleIn (r : Reg) (v : Word) : (s.setRegCc r v).consoleIn = s.consoleIn := rfl
@[simp] theorem State.setRegCc_consoleEnded (r : Reg) (v : Word) : (s.setRegCc r v).consoleEnded = s.consoleEnded := rfl
@[simp] theorem State.setRegCc_consoleOut (r : Reg) (v : Word) : (s.setRegCc r v).consoleOut = s.consoleOut := rfl
@[simp] theorem State.setRegCc_log (r : Reg) (v : Word) : (s.setRegCc r v).log = s.log := rfl
@[simp] theorem State.setRegCc_cfg (r : Reg) (v : Word) : (s.setRegCc r v).cfg = s.cfg := rfl
@[simp] theorem State.setRegCc_rawRead (r : Reg) (v : Word) (x : Word) : (s.setRegCc r v).rawRead x = s.rawRead x := rfl

/-! link -/

@[simp] theorem State.link_regs : (s.link).regs = s.regs.set .r7 s.pc := rfl
@[simp] theorem State.link_pc : (s.link).pc = s.pc := rfl
@[simp] theorem State.link_cond : (s.link).cond = s.cond := rfl
@[simp] theorem State.link_run : (s.link).run = s.run := rfl
@[simp] theorem State.link_abortInfo : (s.link).abortInfo = s.abortInfo := rfl
@[simp] theorem State.link_mem : (s.link).mem = s.mem := rfl
@[simp] theorem State.link_held : (s.link).held = s.held := rfl
@[simp] theorem State.link_consoleIn : (s.link).consoleIn = s.consoleIn := rfl
@[simp] theorem State.link_consoleEnded : (s.link).consoleEnded = s.consoleEnded := rfl
@[simp] theorem State.link_consoleOut : (s.link).consoleOut = s.consoleOut := rfl
@[simp] theorem State.link_log : (s.link).log = s.log := rfl
@[simp] theorem State.link_cfg : (s.link).cfg = s.cfg := rfl
@[simp] theorem State.link_rawRead (x : Word) : (s.link).rawRead x = s.rawRead x := rfl

/-! rawWrite -/

@[simp] theorem State.rawWrite_regs (a v : Word) : (s.rawWrite a v).regs = s.regs := rfl
@[simp] theorem State.rawWrite_pc (a v : Word) : (s.rawWrite a v).pc = s.pc := rfl
@[simp] theorem State.rawWrite_cond (a v : Word) : (s.rawWrite a v).cond = s.cond := rfl
@[simp] theorem State.rawWrite_run (a v : Word) : (s.rawWrite a v).run = s.run := rfl
@[simp] theorem State.rawWrite_abortInfo (a v : Word) : (s.rawWrite a v).abortInfo = s.abortInfo := rfl
@[simp] theorem State.rawWrite_mem (a v : Word) : (s.rawWrite a v).mem = Memory.put s.mem a.toNat v := rfl
@[simp] theorem State.rawWrite_held (a v : Word) : (s.rawWrite a v).held = s.held := rfl
@[simp] theorem State.rawWrite_consoleIn (a v : Word) : (s.rawWrite a v).consoleIn = s.consoleIn := rfl
@[simp] theorem State.rawWrite_consoleEnded (a v : Word) : (s.rawWrite a v).consoleEnded = s.consoleEnded := rfl
@[simp] theorem State.rawWrite_consoleOut (a v : Word) : (s.rawWrite a v).consoleOut = s.consoleOut := rfl
@[simp] theorem State.rawWrite_log (a v : Word) : (s.rawWrite a v).log = s.log := rfl
@[simp] theorem State.rawWrite_cfg (a v : Word) : (s.rawWrite a v).cfg = s.cfg := rfl
@[simp] theorem State.rawWrite_reg (a v : Word) (q : Reg) : (s.rawWrite a v).reg q = s.reg q := rfl

/-! emit -/

@[simp] theorem State.emit_regs (cs : List Byte) : (s.emit cs).regs = s.regs := rfl
@[simp] theorem State.emit_pc (cs : List Byte) : (s.emit cs).pc = s.pc := rfl
@[simp] theorem State.emit_cond (cs : List Byte) : (s.emit cs).cond = s.cond := rfl
@[simp] theorem State.emit_run (cs : List Byte) : (s.emit cs).run = s.run := rfl
@[simp] theorem State.emit_abortInfo (cs : List Byte) : (s.emit cs).abortInfo = s.abortInfo := rfl
@[simp] theorem State.emit_mem (cs : List Byte) : (s.emit cs).mem = s.mem := rfl
@[simp] theorem State.emit_held (cs : List Byte) : (s.emit cs).held = s.held := rfl
@[simp] theorem State.emit_consoleIn (cs : List Byte) : (s.emit cs).consoleIn = s.consoleIn := rfl
@[simp] theorem State.emit_consoleEnded (cs : List Byte) : (s.emit cs).consoleEnded = s.consoleEnded := rfl
@[simp] theorem State.emit_consoleOut (cs : List Byte) : (s.emit cs).consoleOut = s.consoleOut ++ cs := rfl
@[simp] theorem State.emit_log (cs : List Byte) : (s.emit cs).log = s.log := rfl
@[simp] theorem State.emit_cfg (cs : List Byte) : (s.emit cs).cfg = s.cfg := rfl
@[simp] theorem State.emit_reg (cs : List Byte) (q : Reg) : (s.emit cs).reg q = s.reg q := rfl
@[simp] theorem State.emit_rawRead (cs : List Byte) (x : Word) : (s.emit cs).rawRead x = s.rawRead x := rfl

/-! report -/

@[simp] theorem State.report_regs (e : LogEntry) : (s.report e).regs = s.regs := rfl
@[simp] theorem State.report_pc (e : LogEntry) : (s.report e).pc = s.pc := rfl
@[simp] theorem State.report_cond (e : LogEntry) : (s.report e).cond = s.cond := rfl
@[simp] theorem State.report_run (e : LogEntry) : (s.report e).run = s.run := rfl
@[simp] theorem State.report_abortInfo (e : LogEntry) : (s.report e).abortInfo = s.abortInfo := rfl
@[simp] theorem State.report_mem (e : LogEntry) : (s.report e).mem = s.mem := rfl
@[simp] theorem State.report_held (e : LogEntry) : (s.report e).held = s.held := rfl
@[simp] theorem State.report_consoleIn (e : LogEntry) : (s.report e).consoleIn = s.consoleIn := rfl
@[simp] theorem State.report_consoleEnded (e : LogEntry) : (s.report e).consoleEnded = s.consoleEnded := rfl
@[simp] theorem State.report_consoleOut (e : LogEntry) : (s.report e).consoleOut = s.consoleOut := rfl
@[simp] theorem State.report_log (e : LogEntry) : (s.report e).log = s.log ++ [e] := rfl
@[simp] theorem State.report_cfg (e : LogEntry) : (s.report e).cfg = s.cfg := rfl
@[simp] theorem State.report_reg (e : LogEntry) (q : Reg) : (s.report e).reg q = s.reg q := rfl
@[simp] theorem State.report_rawRead (e : LogEntry) (x : Word) : (s.report e).rawRead x = s.rawRead x := rfl

/-! reportDropped -/

@[simp] theorem State.reportDropped_regs (e : LogEntry) : (s.reportDropped e).regs = s.regs := rfl
@[simp] theorem State.reportDropped_pc (e : LogEntry) : (s.reportDropped e).pc = s.pc := rfl
@[simp] theorem State.reportDropped_cond (e : LogEntry) : (s.reportDropped e).cond = s.cond := rfl
@[simp] theorem State.reportDropped_run (e : LogEntry) : (s.reportDropped e).run = s.run := rfl
@[simp] theorem State.reportDropped_abortInfo (e : LogEntry) : (s.reportDropped e).abortInfo = s.abortInfo := rfl
@[simp] theorem State.reportDropped_mem (e : LogEntry) : (s.reportDropped e).mem = s.mem := rfl
@[simp] theorem State.reportDropped_held (e : LogEntry) : (s.reportDropped e).held = s.held := rfl
@[simp] theorem State.reportDropped_consoleIn (e : LogEntry) : (s.reportDropped e).consoleIn = s.consoleIn := rfl
@[simp] theorem State.reportDropped_consoleEnded (e : LogEntry) : (s.reportDropped e).consoleEnded = s.consoleEnded := rfl
@[simp] theorem State.reportDropped_consoleOut (e : LogEntry) : (s.reportDropped e).consoleOut = s.consoleOut := rfl
@[simp] theorem State.reportDropped_cfg (e : LogEntry) : (s.reportDropped e).cfg = s.cfg := rfl
@[simp] theorem State.reportDropped_log (e : LogEntry) :
    (s.reportDropped e).log = s.log ++ if s.cfg.logsDroppedRequests then [e] else [] := rfl
@[simp] theorem State.reportDropped_reg (e : LogEntry) (q : Reg) : (s.reportDropped e).reg q = s.reg q := rfl
@[simp] theorem State.reportDropped_rawRead (e : LogEntry) (x : Word) :
    (s.reportDropped e).rawRead x = s.rawRead x := rfl

/-! setHeld -/

@[simp] theorem State.setHeld_regs (h : Option InputService) : (s.setHeld h).regs = s.regs := rfl
@[simp] theorem State.setHeld_pc (h : Option InputService) : (s.setHeld h).pc = s.pc := rfl
@[simp] theorem State.setHeld_cond (h : Option InputService) : (s.setHeld h).cond = s.cond := rfl
@[simp] theorem State.setHeld_run (h : Option InputService) : (s.setHeld h).run = s.run := rfl
@[simp] theorem State.setHeld_abortInfo (h : Option InputService) : (s.setHeld h).abortInfo = s.abortInfo := rfl
@[simp] theorem State.setHeld_mem (h : Option InputService) : (s.setHeld h).mem = s.mem := rfl
@[simp] theorem State.setHeld_held (h : Option InputService) : (s.setHeld h).held = h := rfl
@[simp] theorem State.setHeld_consoleIn (h : Option InputService) : (s.setHeld h).consoleIn = s.consoleIn := rfl
@[simp] theorem State.setHeld_consoleEnded (h : Option InputService) : (s.setHeld h).consoleEnded = s.consoleEnded := rfl
@[simp] theorem State.setHeld_consoleOut (h : Option InputService) : (s.setHeld h).consoleOut = s.consoleOut := rfl
@[simp] theorem State.setHeld_log (h : Option InputService) : (s.setHeld h).log = s.log := rfl
@[simp] theorem State.setHeld_cfg (h : Option InputService) : (s.setHeld h).cfg = s.cfg := rfl
@[simp] theorem State.setHeld_reg (h : Option InputService) (q : Reg) : (s.setHeld h).reg q = s.reg q := rfl
@[simp] theorem State.setHeld_rawRead (h : Option InputService) (x : Word) : (s.setHeld h).rawRead x = s.rawRead x := rfl

/-! halt -/

@[simp] theorem State.halt_regs : (s.halt).regs = s.regs := rfl
@[simp] theorem State.halt_pc : (s.halt).pc = s.pc := rfl
@[simp] theorem State.halt_cond : (s.halt).cond = s.cond := rfl
@[simp] theorem State.halt_run : (s.halt).run = .halted := rfl
@[simp] theorem State.halt_abortInfo : (s.halt).abortInfo = s.abortInfo := rfl
@[simp] theorem State.halt_mem : (s.halt).mem = s.mem := rfl
@[simp] theorem State.halt_held : (s.halt).held = s.held := rfl
@[simp] theorem State.halt_consoleIn : (s.halt).consoleIn = s.consoleIn := rfl
@[simp] theorem State.halt_consoleEnded : (s.halt).consoleEnded = s.consoleEnded := rfl
@[simp] theorem State.halt_consoleOut : (s.halt).consoleOut = s.consoleOut := rfl
@[simp] theorem State.halt_log : (s.halt).log = s.log := rfl
@[simp] theorem State.halt_cfg : (s.halt).cfg = s.cfg := rfl
@[simp] theorem State.halt_reg (q : Reg) : (s.halt).reg q = s.reg q := rfl
@[simp] theorem State.halt_rawRead (x : Word) : (s.halt).rawRead x = s.rawRead x := rfl

/-! raiseAbort -/

@[simp] theorem State.raiseAbort_regs (k : AbortReason) (w : Word) : (s.raiseAbort k w).regs = s.regs := rfl
@[simp] theorem State.raiseAbort_pc (k : AbortReason) (w : Word) : (s.raiseAbort k w).pc = s.pc := rfl
@[simp] theorem State.raiseAbort_cond (k : AbortReason) (w : Word) : (s.raiseAbort k w).cond = s.cond := rfl
@[simp] theorem State.raiseAbort_run (k : AbortReason) (w : Word) : (s.raiseAbort k w).run = .aborted := rfl
@[simp] theorem State.raiseAbort_abortInfo (k : AbortReason) (w : Word) : (s.raiseAbort k w).abortInfo = some ⟨k, w, s.pc - 1#16⟩ := rfl
@[simp] theorem State.raiseAbort_mem (k : AbortReason) (w : Word) : (s.raiseAbort k w).mem = s.mem := rfl
@[simp] theorem State.raiseAbort_held (k : AbortReason) (w : Word) : (s.raiseAbort k w).held = s.held := rfl
@[simp] theorem State.raiseAbort_consoleIn (k : AbortReason) (w : Word) : (s.raiseAbort k w).consoleIn = s.consoleIn := rfl
@[simp] theorem State.raiseAbort_consoleEnded (k : AbortReason) (w : Word) : (s.raiseAbort k w).consoleEnded = s.consoleEnded := rfl
@[simp] theorem State.raiseAbort_consoleOut (k : AbortReason) (w : Word) : (s.raiseAbort k w).consoleOut = s.consoleOut := rfl
@[simp] theorem State.raiseAbort_log (k : AbortReason) (w : Word) : (s.raiseAbort k w).log = s.log := rfl
@[simp] theorem State.raiseAbort_cfg (k : AbortReason) (w : Word) : (s.raiseAbort k w).cfg = s.cfg := rfl
@[simp] theorem State.raiseAbort_reg (k : AbortReason) (w : Word) (q : Reg) : (s.raiseAbort k w).reg q = s.reg q := rfl
@[simp] theorem State.raiseAbort_rawRead (k : AbortReason) (w : Word) (x : Word) : (s.raiseAbort k w).rawRead x = s.rawRead x := rfl

end Sys2Proof.Machine
end

