-- ==== Sys2Proof/Laws/Memory.lean ====
section
/-! SUPPORT. The laws of memory and registers: a read after a write gives the value written, a write leaves every other
place alone, every memory operation keeps the canonical form, and memories in canonical form that read alike are equal. -/

namespace Sys2Proof.Machine

/-! Registers. -/

theorem Regs.get_set (rs : Regs) (r q : Reg) (v : Word) : (rs.set r v).get q = if q = r then v else rs.get q := by
  cases r <;> cases q <;> rfl

@[simp] theorem State.setReg_reg (s : State) (r q : Reg) (v : Word) :
    (s.setReg r v).reg q = if q = r then v else s.reg q := Regs.get_set s.regs r q v

@[simp] theorem State.setRegCc_reg (s : State) (r q : Reg) (v : Word) :
    (s.setRegCc r v).reg q = if q = r then v else s.reg q := Regs.get_set s.regs r q v

@[simp] theorem State.link_reg (s : State) (q : Reg) : s.link.reg q = if q = .r7 then s.pc else s.reg q :=
  Regs.get_set s.regs .r7 q s.pc

/-! The canonical form. -/

theorem Memory.wfFrom_mono {m : Memory} {lo lo' : Nat} (h : Memory.wfFrom lo m = true) (hl : lo' ≤ lo) :
    Memory.wfFrom lo' m = true := by
  cases m with
  | nil => rfl
  | cons c rest =>
    obtain ⟨b, w⟩ := c
    simp only [Memory.wfFrom, Bool.and_eq_true, decide_eq_true_eq] at h ⊢
    exact ⟨⟨⟨hl.trans h.1.1.1, h.1.1.2⟩, h.1.2⟩, h.2⟩

/-- Below the lowest listed address everything reads as its reset contents. -/
theorem Memory.get_below {m : Memory} {lo a : Nat} (h : Memory.wfFrom lo m = true) (ha : a < lo) :
    Memory.get m a = resetWord a := by
  induction m generalizing lo with
  | nil => rfl
  | cons c rest ih =>
    obtain ⟨b, w⟩ := c
    simp only [Memory.wfFrom, Bool.and_eq_true, decide_eq_true_eq] at h
    have hb : a ≠ b := by omega
    simp only [Memory.get, if_neg hb]
    exact ih h.2 (by omega)

theorem Memory.wfFrom_put {m : Memory} {lo a : Nat} (v : Word) (h : Memory.wfFrom lo m = true) (hlo : lo ≤ a)
    (ha : a < 65536) : Memory.wfFrom lo (Memory.put m a v) = true := by
  induction m generalizing lo with
  | nil =>
    simp only [Memory.put]
    split <;> simp_all [Memory.wfFrom]
  | cons c rest ih =>
    obtain ⟨b, w⟩ := c
    have h' := h
    simp only [Memory.wfFrom, Bool.and_eq_true, decide_eq_true_eq] at h
    simp only [Memory.put]
    split
    · split
      · exact h'
      · simp_all [Memory.wfFrom]
    · split
      · split
        · exact Memory.wfFrom_mono h.2 (by omega)
        · subst_vars
          simp_all [Memory.wfFrom]
      · simp only [Memory.wfFrom, Bool.and_eq_true, decide_eq_true_eq]
        exact ⟨h.1, ih h.2 (by omega)⟩

/-- Every store keeps memory in its canonical form. -/
theorem Memory.wf_put {m : Memory} {a : Nat} (v : Word) (h : Memory.wf m = true) (ha : a < 65536) :
    Memory.wf (Memory.put m a v) = true := Memory.wfFrom_put v h (Nat.zero_le a) ha

/-! Read after write. -/

theorem Memory.get_put_same {m : Memory} {lo a : Nat} (v : Word) (h : Memory.wfFrom lo m = true) :
    Memory.get (Memory.put m a v) a = v := by
  induction m generalizing lo with
  | nil =>
    simp only [Memory.put]
    split <;> simp_all [Memory.get]
  | cons c rest ih =>
    obtain ⟨b, w⟩ := c
    simp only [Memory.wfFrom, Bool.and_eq_true, decide_eq_true_eq] at h
    simp only [Memory.put]
    split
    · split
      · have hb : a ≠ b := by omega
        simp only [Memory.get, if_neg hb]
        rw [Memory.get_below h.2 (by omega)]
        simp_all
      · simp [Memory.get]
    · split
      · subst_vars
        split
        · rw [Memory.get_below h.2 (by omega)]
          simp_all
        · simp [Memory.get]
      · rename_i hb
        simp only [Memory.get, if_neg hb]
        exact ih h.2

/-- A store leaves every other word alone, in any list of words. -/
theorem Memory.get_put_other {m : Memory} {a x : Nat} (v : Word) (hx : x ≠ a) :
    Memory.get (Memory.put m a v) x = Memory.get m x := by
  induction m with
  | nil =>
    simp only [Memory.put]
    split <;> simp [Memory.get, hx]
  | cons c rest ih =>
    obtain ⟨b, w⟩ := c
    simp only [Memory.put]
    split
    · split
      · rfl
      · simp [Memory.get, hx]
    · split
      · subst_vars
        split <;> simp [Memory.get, hx]
      · simp only [Memory.get]
        split
        · rfl
        · exact ih

/-- Two memories in canonical form that read alike at every address are the same data. -/
theorem Memory.ext_wfFrom {m m' : Memory} {lo : Nat} (h : Memory.wfFrom lo m = true) (h' : Memory.wfFrom lo m' = true)
    (hr : ∀ a, Memory.get m a = Memory.get m' a) : m = m' := by
  induction m generalizing m' lo with
  | nil =>
    cases m' with
    | nil => rfl
    | cons c rest =>
      obtain ⟨b, w⟩ := c
      simp only [Memory.wfFrom, Bool.and_eq_true, decide_eq_true_eq] at h'
      have := hr b
      simp only [Memory.get, if_true] at this
      exact absurd this.symm h'.1.2
  | cons c rest ih =>
    obtain ⟨b, w⟩ := c
    have hw := h
    simp only [Memory.wfFrom, Bool.and_eq_true, decide_eq_true_eq] at h
    cases m' with
    | nil =>
      have := hr b
      simp only [Memory.get, if_true] at this
      exact absurd this h.1.2
    | cons c' rest' =>
      obtain ⟨b', w'⟩ := c'
      have hw' := h'
      simp only [Memory.wfFrom, Bool.and_eq_true, decide_eq_true_eq] at h'
      have hb : b = b' := by
        rcases Nat.lt_trichotomy b b' with hlt | heq | hgt
        · have hx := hr b
          have hne : b ≠ b' := by omega
          simp only [Memory.get, if_true, if_neg hne] at hx
          rw [Memory.get_below h'.2 (by omega)] at hx
          exact absurd hx h.1.2
        · exact heq
        · have hx := hr b'
          have hne : b' ≠ b := by omega
          simp only [Memory.get, if_true, if_neg hne] at hx
          rw [Memory.get_below h.2 (by omega)] at hx
          exact absurd hx.symm h'.1.2
      subst hb
      have hww : w = w' := by simpa [Memory.get] using hr b
      subst hww
      have hrest : rest = rest' := by
        refine ih h.2 h'.2 fun a => ?_
        rcases Nat.lt_or_ge a (b + 1) with hlt | hge
        · rw [Memory.get_below h.2 hlt, Memory.get_below h'.2 hlt]
        · have hx := hr a
          have hne : a ≠ b := by omega
          simpa only [Memory.get, if_neg hne] using hx
      rw [hrest]

/-! The same, of a state's raw access. -/

theorem State.rawRead_rawWrite_same (s : State) (a v : Word) (h : Memory.wf s.mem = true) :
    (s.rawWrite a v).rawRead a = v := Memory.get_put_same v h

theorem State.rawRead_rawWrite_other (s : State) {a x : Word} (v : Word) (hx : x ≠ a) :
    (s.rawWrite a v).rawRead x = s.rawRead x :=
  Memory.get_put_other v fun h => hx (BitVec.eq_of_toNat_eq h)

theorem State.rawRead_rawWrite (s : State) (a x v : Word) (h : Memory.wf s.mem = true) :
    (s.rawWrite a v).rawRead x = if x = a then v else s.rawRead x := by
  split
  · subst_vars
    exact s.rawRead_rawWrite_same _ v h
  · exact s.rawRead_rawWrite_other v ‹_›

@[simp] theorem State.rawWrite_wf (s : State) (a v : Word) (h : Memory.wf s.mem = true) :
    Memory.wf (Memory.put s.mem a.toNat v) = true := Memory.wf_put v h a.isLt

theorem State.reset_wf : Memory.wf State.reset.mem = true := rfl

end Sys2Proof.Machine
end

