-- ==== Sys2Proof/Laws/Access.lean ====
section
/-! SUPPORT. What the instrumented accessors, the device and the dispatcher can do, said once: their frames, and the
words a poll and a store leave. -/

namespace Sys2Proof.Machine

/-- What a device action and a store keep: everything but memory and the log; memory keeps its form, the log grows. -/
structure StoreFrame (s t : State) : Prop where
  regs : t.regs = s.regs
  pc : t.pc = s.pc
  cond : t.cond = s.cond
  run : t.run = s.run
  abortInfo : t.abortInfo = s.abortInfo
  held : t.held = s.held
  consoleIn : t.consoleIn = s.consoleIn
  consoleEnded : t.consoleEnded = s.consoleEnded
  consoleOut : t.consoleOut = s.consoleOut
  cfg : t.cfg = s.cfg
  wf : Memory.wf s.mem = true → Memory.wf t.mem = true
  log : s.log <+: t.log

theorem StoreFrame.refl (s : State) : StoreFrame s s :=
  ⟨rfl, rfl, rfl, rfl, rfl, rfl, rfl, rfl, rfl, rfl, id, List.prefix_refl _⟩

theorem StoreFrame.trans {s t u : State} (h : StoreFrame s t) (k : StoreFrame t u) : StoreFrame s u :=
  ⟨k.regs.trans h.regs, k.pc.trans h.pc, k.cond.trans h.cond, k.run.trans h.run, k.abortInfo.trans h.abortInfo,
    k.held.trans h.held, k.consoleIn.trans h.consoleIn, k.consoleEnded.trans h.consoleEnded,
    k.consoleOut.trans h.consoleOut, k.cfg.trans h.cfg, fun w => k.wf (h.wf w), h.log.trans k.log⟩

theorem State.rawWrite_frame (s : State) (a v : Word) : StoreFrame s (s.rawWrite a v) :=
  ⟨rfl, rfl, rfl, rfl, rfl, rfl, rfl, rfl, rfl, rfl, fun w => s.rawWrite_wf a v w, List.prefix_refl _⟩

theorem State.report_frame (s : State) (e : LogEntry) : StoreFrame s (s.report e) :=
  ⟨rfl, rfl, rfl, rfl, rfl, rfl, rfl, rfl, rfl, rfl, id, List.prefix_append _ _⟩

theorem State.reportDropped_frame (s : State) (e : LogEntry) : StoreFrame s (s.reportDropped e) :=
  ⟨rfl, rfl, rfl, rfl, rfl, rfl, rfl, rfl, rfl, rfl, id, List.prefix_append _ _⟩

theorem State.synthFill_frame (s : State) (a position length : Word) (n : Nat) :
    StoreFrame s (s.synthFill a position length n) := by
  induction n with
  | zero => exact .refl s
  | succ n ih => exact ih.trans (State.rawWrite_frame ..)

theorem State.blockRead_frame (s : State) (i a position length : Word) :
    StoreFrame s (s.blockRead i a position length) :=
  (((s.synthFill_frame a position length _).trans (State.rawWrite_frame ..)).trans (State.rawWrite_frame ..)).trans
    (State.rawWrite_frame ..)

theorem State.serve_frame (s : State) (i : Word) : StoreFrame s (s.serve i).1 := by
  simp only [State.serve]
  split
  · exact s.blockRead_frame ..
  · split
    · exact s.report_frame _
    · exact s.reportDropped_frame _

theorem State.handle_frame (s : State) (flags : Word) : StoreFrame s (s.handle flags).1 := by
  simp only [State.handle]
  split
  · exact .refl s
  split
  · exact .refl s
  split
  · exact (s.rawWrite_frame ..).trans (State.reportDropped_frame ..)
  split
  · exact (s.rawWrite_frame ..).trans (State.reportDropped_frame ..)
  · exact ((s.rawWrite_frame ..).trans (State.rawWrite_frame ..)).trans (State.serve_frame ..)

theorem State.dispatch_frame (s : State) (e : Word) : StoreFrame s (s.dispatch e) := by
  unfold State.dispatch
  split
  · have h := s.handle_frame (s.rawRead e)
    split <;> simp_all
    exact h.trans (State.rawWrite_frame ..)
  · exact .refl s

/-- Everything an instrumented store can do, but for which words of memory it changes. -/
theorem State.memWrite_frame (s : State) (a v : Word) : StoreFrame s (s.memWrite a v) := by
  unfold State.memWrite
  split
  · exact (s.rawWrite_frame a v).trans (State.dispatch_frame ..)
  · exact s.rawWrite_frame a v

/-- A store anywhere but at the doorbell is the raw store (R83, R269). -/
theorem State.memWrite_plain (s : State) {a : Word} (v : Word) (h : a ≠ s.cfg.virtioEntry) :
    s.memWrite a v = s.rawWrite a v := by
  unfold State.memWrite State.dispatch
  split
  · rw [if_neg]
    simpa using h
  · rfl

/-- VIRTIO_ENTRY lies in the interrupt-vector window (R14). -/
theorem virtioEntry_inIvt (c : Config) : inIvt c.virtioEntry = true := by
  have h := c.virtioSlot.isLt
  simp only [inIvt, Config.virtioEntry, ivtLo, ivtHi, Bool.and_eq_true, decide_eq_true_eq, BitVec.le_def]
  simp only [BitVec.toNat_add, BitVec.toNat_setWidth, BitVec.toNat_ofNat]
  omega

theorem virtioEntry_bounds (c : Config) : 0x100 ≤ c.virtioEntry.toNat ∧ c.virtioEntry.toNat ≤ 0x1FF := by
  have h := c.virtioSlot.isLt
  simp only [Config.virtioEntry, BitVec.toNat_add, BitVec.toNat_setWidth, BitVec.toNat_ofNat]
  omega

/-- A store at the doorbell is the raw store, then the dispatch (R83). -/
theorem State.memWrite_doorbell (s : State) (v : Word) :
    s.memWrite s.cfg.virtioEntry v = (s.rawWrite s.cfg.virtioEntry v).dispatch s.cfg.virtioEntry := by
  unfold State.memWrite
  rw [if_pos (virtioEntry_inIvt _)]

/-! Polls and reads. -/

/-- What a poll and an instrumented read keep: everything but KBSR, KBDR and the console input. -/
structure ReadFrame (s t : State) : Prop where
  regs : t.regs = s.regs
  pc : t.pc = s.pc
  cond : t.cond = s.cond
  run : t.run = s.run
  abortInfo : t.abortInfo = s.abortInfo
  held : t.held = s.held
  consoleIn : t.consoleIn <:+ s.consoleIn
  consoleEnded : t.consoleEnded = s.consoleEnded
  consoleOut : t.consoleOut = s.consoleOut
  log : t.log = s.log
  cfg : t.cfg = s.cfg
  wf : Memory.wf s.mem = true → Memory.wf t.mem = true
  mem : MemoryKept [kbsrAddr, kbdrAddr] s t

theorem ReadFrame.refl (s : State) : ReadFrame s s :=
  ⟨rfl, rfl, rfl, rfl, rfl, rfl, List.suffix_refl _, rfl, rfl, rfl, rfl, id, fun _ _ => rfl⟩

theorem ReadFrame.trans {s t u : State} (h : ReadFrame s t) (k : ReadFrame t u) : ReadFrame s u :=
  ⟨k.regs.trans h.regs, k.pc.trans h.pc, k.cond.trans h.cond, k.run.trans h.run, k.abortInfo.trans h.abortInfo,
    k.held.trans h.held, k.consoleIn.trans h.consoleIn, k.consoleEnded.trans h.consoleEnded,
    k.consoleOut.trans h.consoleOut, k.log.trans h.log, k.cfg.trans h.cfg, fun w => k.wf (h.wf w),
    fun a ha => (k.mem a ha).trans (h.mem a ha)⟩

theorem State.consolePoll_frame (s : State) : ReadFrame s s.consolePoll.2 := by
  unfold State.consolePoll
  split
  · exact .refl s
  all_goals
    rename_i h
    exact ⟨rfl, rfl, rfl, rfl, rfl, rfl, h ▸ List.suffix_cons _ _, rfl, rfl, rfl, rfl, id, fun _ _ => rfl⟩

theorem State.rawWrite_keyboard (s : State) (a v : Word) (h : a = kbsrAddr ∨ a = kbdrAddr) :
    ReadFrame s (s.rawWrite a v) :=
  ⟨rfl, rfl, rfl, rfl, rfl, rfl, List.suffix_refl _, rfl, rfl, rfl, rfl, fun w => s.rawWrite_wf a v w, fun x hx => by
    refine s.rawRead_rawWrite_other v ?_
    rintro rfl
    simp_all⟩

theorem State.pollKeyboard_frame (s : State) : ReadFrame s s.pollKeyboard := by
  have h := s.consolePoll_frame
  unfold State.pollKeyboard
  split <;> simp_all
  · exact (h.trans (State.rawWrite_keyboard _ _ _ (.inl rfl))).trans (State.rawWrite_keyboard _ _ _ (.inr rfl))
  · split
    · exact (h.trans (State.rawWrite_keyboard _ _ _ (.inr rfl))).trans (State.rawWrite_keyboard _ _ _ (.inl rfl))
    · exact h.trans (State.rawWrite_keyboard _ _ _ (.inr rfl))

/-- Everything an instrumented read can do. -/
theorem State.memRead_frame (s : State) (a : Word) : ReadFrame s (s.memRead a).2 := by
  simp only [State.memRead, State.afterRead]
  split
  · exact s.pollKeyboard_frame
  · exact .refl s

/-- A read anywhere but at KBSR_ADDR has no side effect (R81). -/
theorem State.memRead_plain (s : State) {a : Word} (h : a ≠ kbsrAddr) : s.memRead a = (s.rawRead a, s) := by
  simp [State.memRead, State.afterRead, h]

theorem ReadFrame.reg {s t : State} (h : ReadFrame s t) (r : Reg) : t.reg r = s.reg r := by
  simp only [State.reg, h.regs]

theorem StoreFrame.reg {s t : State} (h : StoreFrame s t) (r : Reg) : t.reg r = s.reg r := by
  simp only [State.reg, h.regs]

/-! The blocking read. -/

theorem nextKey_suffix {l : List ConsoleEvent} {c : Byte} {rest : List ConsoleEvent} (h : nextKey l = some (c, rest)) :
    rest <:+ l := by
  induction l with
  | nil => simp [nextKey] at h
  | cons e l ih =>
    cases e with
    | key d =>
      simp only [nextKey, Option.some.injEq, Prod.mk.injEq] at h
      exact h.2 ▸ List.suffix_cons _ _
    | quiet => exact (ih h).trans (List.suffix_cons _ _)

/-- What a blocking read can do: only the console input changes. -/
theorem State.consoleGet_cases (s : State) :
    (∃ c rest, nextKey s.consoleIn = some (c, rest) ∧
      s.consoleGet = (some (zext c), { s with consoleIn := rest })) ∨
    (nextKey s.consoleIn = none ∧ s.consoleEnded = true ∧ s.consoleGet = (some eofValue, s)) ∨
    (nextKey s.consoleIn = none ∧ s.consoleEnded = false ∧ s.consoleGet = (none, s)) := by
  unfold State.consoleGet
  cases h : nextKey s.consoleIn with
  | some p => exact .inl ⟨p.1, p.2, rfl, rfl⟩
  | none => cases he : s.consoleEnded <;> simp

end Sys2Proof.Machine
end

