-- ==== Sys2Proof/Laws/Step.lean ====
section
/-! SUPPORT. What a service, an instruction and a step can do, said once: every invariant of a run follows from
exec_cases and step_cases. -/

namespace Sys2Proof.Machine

/-- What every instruction but HALT, RTI and RES keeps: run state, abort record and parameters; memory keeps its form,
console input is used from its front, output and log only grow. -/
structure RunFrame (s t : State) : Prop where
  run : t.run = s.run
  abortInfo : t.abortInfo = s.abortInfo
  cfg : t.cfg = s.cfg
  wf : Memory.wf s.mem = true → Memory.wf t.mem = true
  consoleIn : t.consoleIn <:+ s.consoleIn
  consoleEnded : t.consoleEnded = s.consoleEnded
  consoleOut : s.consoleOut <+: t.consoleOut
  log : s.log <+: t.log

theorem RunFrame.refl (s : State) : RunFrame s s :=
  ⟨rfl, rfl, rfl, id, List.suffix_refl _, rfl, List.prefix_refl _, List.prefix_refl _⟩

theorem RunFrame.trans {s t u : State} (h : RunFrame s t) (k : RunFrame t u) : RunFrame s u :=
  ⟨k.run.trans h.run, k.abortInfo.trans h.abortInfo, k.cfg.trans h.cfg, fun w => k.wf (h.wf w),
    k.consoleIn.trans h.consoleIn, k.consoleEnded.trans h.consoleEnded, h.consoleOut.trans k.consoleOut,
    h.log.trans k.log⟩

theorem StoreFrame.runFrame {s t : State} (h : StoreFrame s t) : RunFrame s t :=
  ⟨h.run, h.abortInfo, h.cfg, h.wf, by rw [h.consoleIn], h.consoleEnded, by rw [h.consoleOut], h.log⟩

theorem ReadFrame.runFrame {s t : State} (h : ReadFrame s t) : RunFrame s t :=
  ⟨h.run, h.abortInfo, h.cfg, h.wf, h.consoleIn, h.consoleEnded, by rw [h.consoleOut], by rw [h.log]⟩

/-- An update of registers, PC, COND or the hold alone. -/
theorem RunFrame.of_eq {s t : State} (h1 : t.run = s.run) (h2 : t.abortInfo = s.abortInfo) (h3 : t.cfg = s.cfg)
    (h4 : t.mem = s.mem) (h5 : t.consoleIn = s.consoleIn) (h6 : t.consoleEnded = s.consoleEnded)
    (h7 : t.consoleOut = s.consoleOut) (h8 : t.log = s.log) : RunFrame s t :=
  ⟨h1, h2, h3, fun w => h4 ▸ w, by rw [h5], h6, by rw [h7], by rw [h8]⟩

theorem State.setRegCc_runFrame (s : State) (r : Reg) (v : Word) : RunFrame s (s.setRegCc r v) :=
  .of_eq rfl rfl rfl rfl rfl rfl rfl rfl

theorem State.setReg_runFrame (s : State) (r : Reg) (v : Word) : RunFrame s (s.setReg r v) :=
  .of_eq rfl rfl rfl rfl rfl rfl rfl rfl

theorem State.link_runFrame (s : State) : RunFrame s s.link := .of_eq rfl rfl rfl rfl rfl rfl rfl rfl

theorem State.setPc_runFrame (s : State) (v : Word) : RunFrame s (s.setPc v) := .of_eq rfl rfl rfl rfl rfl rfl rfl rfl

theorem State.setHeld_runFrame (s : State) (h : Option InputService) : RunFrame s (s.setHeld h) :=
  .of_eq rfl rfl rfl rfl rfl rfl rfl rfl

theorem State.emit_runFrame (s : State) (cs : List Byte) : RunFrame s (s.emit cs) :=
  ⟨rfl, rfl, rfl, id, List.suffix_refl _, rfl, List.prefix_append _ _, List.prefix_refl _⟩

theorem State.receive_runFrame (s : State) (svc : InputService) (v : Word) : RunFrame s (s.receive svc v) := by
  cases svc <;> simp only [State.receive] <;> split
  · exact s.setRegCc_runFrame ..
  · exact s.setReg_runFrame ..
  · exact (s.emit_runFrame _).trans (State.setRegCc_runFrame ..)
  · exact (s.emit_runFrame _).trans (State.setReg_runFrame ..)

/-- What an input service leaves: the value received, or the hold. -/
theorem State.inputService_cases (s : State) (svc : InputService) :
    (∃ c rest, nextKey s.consoleIn = some (c, rest) ∧
      s.inputService svc = (({ s with consoleIn := rest } : State).setHeld none).receive svc (zext c)) ∨
    (nextKey s.consoleIn = none ∧ s.consoleEnded = true ∧
      s.inputService svc = (s.setHeld none).receive svc eofValue) ∨
    (nextKey s.consoleIn = none ∧ s.consoleEnded = false ∧ s.inputService svc = s.setHeld (some svc)) := by
  rcases s.consoleGet_cases with ⟨c, rest, hk, hg⟩ | ⟨hk, he, hg⟩ | ⟨hk, he, hg⟩
  · exact .inl ⟨c, rest, hk, by simp only [State.inputService, hg]⟩
  · exact .inr (.inl ⟨hk, he, by simp only [State.inputService, hg]⟩)
  · exact .inr (.inr ⟨hk, he, by simp only [State.inputService, hg]⟩)

theorem State.inputService_runFrame (s : State) (svc : InputService) : RunFrame s (s.inputService svc) := by
  rcases s.inputService_cases svc with ⟨c, rest, hk, e⟩ | ⟨_, _, e⟩ | ⟨_, _, e⟩ <;> rw [e]
  · refine RunFrame.trans (t := { s with consoleIn := rest }) ?_
      ((State.setHeld_runFrame ..).trans (State.receive_runFrame ..))
    exact ⟨rfl, rfl, rfl, id, nextKey_suffix hk, rfl, List.prefix_refl _, List.prefix_refl _⟩
  · exact (s.setHeld_runFrame _).trans (State.receive_runFrame ..)
  · exact s.setHeld_runFrame _

/-- The service table of R221, by cases. -/
theorem State.service_cases (s : State) (v : Byte) :
    (v = 0x20#8 ∧ s.service v = s.serviceGetc) ∨ (v = 0x21#8 ∧ s.service v = s.serviceOut) ∨
    (v = 0x22#8 ∧ s.service v = s.servicePuts) ∨ (v = 0x23#8 ∧ s.service v = s.serviceIn) ∨
    (v = 0x24#8 ∧ s.service v = s.servicePutsp) ∨ (v = 0x25#8 ∧ s.service v = s.serviceHalt) ∨
    ((v.toNat < 0x20 ∨ 0x25 < v.toNat) ∧ s.service v = s.serviceUnknown v) := by
  have key : ∀ k : Nat, k < 256 → (v.toNat = k ↔ v = BitVec.ofNat 8 k) := fun k hk => by
    rw [← BitVec.toNat_inj, BitVec.toNat_ofNat, Nat.mod_eq_of_lt hk]
  unfold State.service
  split
  · exact .inl ⟨(key _ (by omega)).1 ‹_›, rfl⟩
  · exact .inr (.inl ⟨(key _ (by omega)).1 ‹_›, rfl⟩)
  · exact .inr (.inr (.inl ⟨(key _ (by omega)).1 ‹_›, rfl⟩))
  · exact .inr (.inr (.inr (.inl ⟨(key _ (by omega)).1 ‹_›, rfl⟩)))
  · exact .inr (.inr (.inr (.inr (.inl ⟨(key _ (by omega)).1 ‹_›, rfl⟩))))
  · exact .inr (.inr (.inr (.inr (.inr (.inl ⟨(key _ (by omega)).1 ‹_›, rfl⟩)))))
  · refine .inr (.inr (.inr (.inr (.inr (.inr ⟨?_, rfl⟩)))))
    simp only [imp_false] at *
    omega

/-- What an instruction that answers a next state can do to the run: keep it, halt it (TRAP HALT), or abort it (RTI,
RES). -/
theorem exec_cases (i : Instr) (s t : State) (h : exec i s = .next t) :
    RunFrame s t ∨ (i = .trap 0x25#8 ∧ t = (s.link.emit s.cfg.haltMessage).halt) ∨
    (∃ low, i = .rti low ∧ t = s.raiseAbort .abortRti (0x8#4 ++ low)) ∨
    (∃ low, i = .res low ∧ t = s.raiseAbort .abortRes (0xD#4 ++ low)) := by
  cases i
  case trap v =>
    simp only [exec, execTrap] at h
    have hl := s.link_runFrame
    rcases s.link.service_cases v with ⟨hv, e⟩ | ⟨hv, e⟩ | ⟨hv, e⟩ | ⟨hv, e⟩ | ⟨hv, e⟩ | ⟨hv, e⟩ | ⟨hv, e⟩ <;> rw [e] at h
    · cases h
      exact .inl (hl.trans (State.inputService_runFrame ..))
    · cases h
      exact .inl (hl.trans (State.emit_runFrame ..))
    · unfold State.servicePuts at h
      split at h <;> cases h
      exact .inl (hl.trans (State.emit_runFrame ..))
    · cases h
      exact .inl (hl.trans ((State.emit_runFrame ..).trans (State.inputService_runFrame ..)))
    · unfold State.servicePutsp at h
      split at h <;> cases h
      exact .inl (hl.trans (State.emit_runFrame ..))
    · cases h
      exact .inr (.inl ⟨by rw [hv], rfl⟩)
    · cases h
      exact .inl (hl.trans (State.report_frame ..).runFrame)
  case rti low =>
    cases h
    exact .inr (.inr (.inl ⟨low, rfl, rfl⟩))
  case res low =>
    cases h
    exact .inr (.inr (.inr ⟨low, rfl, rfl⟩))
  all_goals
    left
    cases h
  case br.refl =>
    split
    · exact s.setPc_runFrame _
    · exact .refl s
  case jmp.refl => exact s.setPc_runFrame _
  case jsr.refl => exact s.link_runFrame.trans (State.setPc_runFrame ..)
  case jsrr.refl => exact s.link_runFrame.trans (State.setPc_runFrame ..)
  case ld.refl => exact (State.memRead_frame ..).runFrame.trans (State.setRegCc_runFrame ..)
  case ldr.refl => exact (State.memRead_frame ..).runFrame.trans (State.setRegCc_runFrame ..)
  case ldi.refl =>
    exact ((State.memRead_frame ..).trans (State.memRead_frame ..)).runFrame.trans (State.setRegCc_runFrame ..)
  case st.refl => exact (State.memWrite_frame ..).runFrame
  case str.refl => exact (State.memWrite_frame ..).runFrame
  case sti.refl => exact (State.memRead_frame ..).runFrame.trans (State.memWrite_frame ..).runFrame
  all_goals exact s.setRegCc_runFrame ..

/-- The only stop of an instruction: a string service over a memory with no end of string (R225). -/
theorem exec_stops (i : Instr) (s : State) : (∃ t, exec i s = .next t) ∨
    (exec i s = .fault .stringNeverEnds ∧ (i = .trap 0x22#8 ∨ i = .trap 0x24#8) ∧ s.link.string = none) := by
  cases i
  case trap v =>
    simp only [exec, execTrap]
    rcases s.link.service_cases v with ⟨hv, e⟩ | ⟨hv, e⟩ | ⟨hv, e⟩ | ⟨hv, e⟩ | ⟨hv, e⟩ | ⟨hv, e⟩ | ⟨hv, e⟩ <;> rw [e]
    case inr.inr.inl =>
      unfold State.servicePuts
      split
      · exact .inl ⟨_, rfl⟩
      · exact .inr ⟨rfl, .inl (by rw [hv]), ‹_›⟩
    case inr.inr.inr.inr.inl =>
      unfold State.servicePutsp
      split
      · exact .inl ⟨_, rfl⟩
      · exact .inr ⟨rfl, .inr (by rw [hv]), ‹_›⟩
    all_goals exact .inl ⟨_, rfl⟩
  all_goals exact .inl ⟨_, rfl⟩

/-- What a fetch can do. -/
theorem State.fetch_runFrame (s : State) : RunFrame s s.fetch.2 :=
  (s.memRead_frame s.pc).runFrame.trans (State.setPc_runFrame ..)

theorem State.fetch_held (s : State) : s.fetch.2.held = s.held := (s.memRead_frame s.pc).held

theorem State.fetch_cond (s : State) : s.fetch.2.cond = s.cond := (s.memRead_frame s.pc).cond

theorem State.fetch_pc (s : State) : s.fetch.2.pc = s.pc + 1#16 := rfl

/-- A fetch anywhere but at KBSR_ADDR reads the stored word and changes PC alone (R81, R82). -/
theorem State.fetch_plain (s : State) (h : s.pc ≠ kbsrAddr) : s.fetch = (s.rawRead s.pc, s.setPc (s.pc + 1#16)) := by
  simp [State.fetch, s.memRead_plain h]

/-- What a step that answers a next state can be. -/
theorem step_cases (s t : State) (h : step s = .next t) :
    (s.run ≠ .running ∧ t = s) ∨
    (∃ svc, s.run = .running ∧ s.held = some svc ∧ t = s.inputService svc) ∨
    (∃ i, s.run = .running ∧ s.held = none ∧ decode s.fetch.1 = .ok i ∧ exec i s.fetch.2 = .next t) ∨
    (∃ e, s.run = .running ∧ s.held = none ∧ decode s.fetch.1 = .error e ∧
      t = s.fetch.2.report (.unknownOpcode s.fetch.1)) := by
  unfold step at h
  split at h
  · split at h
    · exact .inr (.inr (.inl ⟨_, ‹_›, ‹_›, ‹_›, h⟩))
    · cases h
      exact .inr (.inr (.inr ⟨_, ‹_›, ‹_›, ‹_›, rfl⟩))
  · cases h
    exact .inr (.inl ⟨_, ‹_›, ‹_›, rfl⟩)
  all_goals
    cases h
    exact .inl ⟨by simp_all, rfl⟩

end Sys2Proof.Machine
end

