-- ==== Sys2Proof/Laws/Cond.lean ====
section
/-! SUPPORT. COND commutes with everything but BR's test (spec/10_state.md R39): the accessors, the dispatch, the poll
and the input services do with a changed COND what they do without; and what GETC and IN do with the value read. -/

namespace Sys2Proof.Machine

theorem State.synthFill_setCond (s : State) (c a position length : Word) (n : Nat) :
    (s.setCond c).synthFill a position length n = (s.synthFill a position length n).setCond c := by
  induction n with
  | zero => rfl
  | succ n ih => simp only [State.synthFill, ih]; rfl

theorem State.serve_setCond (s : State) (c i : Word) :
    (s.setCond c).serve i = ((s.serve i).1.setCond c, (s.serve i).2) := by
  by_cases h1 : s.rawRead (s.rawRead (descAddr i)) = blkRead
  · have h1' : (s.setCond c).rawRead ((s.setCond c).rawRead (descAddr i)) = blkRead := h1
    simp only [State.serve, if_pos h1, if_pos h1', State.blockRead, State.synthFill_setCond]
    rfl
  · have h1' : (s.setCond c).rawRead ((s.setCond c).rawRead (descAddr i)) ≠ blkRead := h1
    by_cases h2 : s.rawRead (s.rawRead (descAddr i)) = blkWrite
    · have h2' : (s.setCond c).rawRead ((s.setCond c).rawRead (descAddr i)) = blkWrite := h2
      simp only [State.serve, if_neg h1, if_neg h1', if_pos h2, if_pos h2']
      rfl
    · have h2' : (s.setCond c).rawRead ((s.setCond c).rawRead (descAddr i)) ≠ blkWrite := h2
      simp only [State.serve, if_neg h1, if_neg h1', if_neg h2, if_neg h2']
      rfl

theorem State.handle_setCond (s : State) (c flags : Word) :
    (s.setCond c).handle flags = ((s.handle flags).1.setCond c, (s.handle flags).2) := by
  by_cases h1 : flags.getLsbD 0 = false
  · rw [State.handle, State.handle, if_pos h1, if_pos h1]
  by_cases h2 : s.rawRead availFlagsAddr = 0#16
  · have h2' : (s.setCond c).rawRead availFlagsAddr = 0#16 := h2
    rw [State.handle, State.handle, if_neg h1, if_neg h1, if_pos h2, if_pos h2']
  have h2' : (s.setCond c).rawRead availFlagsAddr ≠ 0#16 := h2
  rw [State.handle, State.handle, if_neg h1, if_neg h1, if_neg h2, if_neg h2',
    show (s.setCond c).rawWrite availFlagsAddr 0#16 = (s.rawWrite availFlagsAddr 0#16).setCond c from rfl]
  generalize s.rawWrite availFlagsAddr 0#16 = u
  dsimp only
  rw [State.setCond_rawRead, State.setCond_rawRead]
  generalize u.rawRead availIdxAddr = i
  by_cases h3 : nDesc ≤ i.toNat
  · rw [if_pos h3, if_pos h3]
    rfl
  by_cases h4 : u.rawRead (descFlagsAddr i) = 0#16
  · rw [if_neg h3, if_neg h3, if_pos h4, if_pos h4]
    rfl
  rw [if_neg h3, if_neg h3, if_neg h4, if_neg h4]
  exact State.serve_setCond (u.rawWrite (descFlagsAddr i) 0#16) c i

theorem State.dispatch_setCond (s : State) (c e : Word) : (s.setCond c).dispatch e = (s.dispatch e).setCond c := by
  by_cases h : e = s.cfg.virtioEntry
  · have h' : e = (s.setCond c).cfg.virtioEntry := h
    rw [State.dispatch, State.dispatch, if_pos h, if_pos h', State.handle_setCond, State.setCond_rawRead]
    generalize s.handle (s.rawRead e) = q
    obtain ⟨a, b⟩ := q
    cases b <;> rfl
  · have h' : e ≠ (s.setCond c).cfg.virtioEntry := h
    rw [State.dispatch, State.dispatch, if_neg h, if_neg h']

theorem State.memWrite_setCond (s : State) (c a v : Word) : (s.setCond c).memWrite a v = (s.memWrite a v).setCond c := by
  unfold State.memWrite
  split
  · rw [← State.dispatch_setCond]; rfl
  · rfl

theorem State.pollKeyboard_setCond (s : State) (c : Word) : (s.setCond c).pollKeyboard = s.pollKeyboard.setCond c := by
  obtain ⟨regs, pc, cond, run, abortInfo, mem, held, consoleIn, ended, out, log, cfg⟩ := s
  obtain ⟨slot, clear, setsFlags, prompt, message, start, reports⟩ := cfg
  rcases consoleIn with _ | ⟨_ | _, rest⟩ <;> cases clear <;> rfl

theorem State.memRead_setCond (s : State) (c a : Word) :
    (s.setCond c).memRead a = ((s.memRead a).1, (s.memRead a).2.setCond c) := by
  unfold State.memRead State.afterRead
  split
  · rw [State.pollKeyboard_setCond]; rfl
  · rfl

theorem State.loadReg_setCond (s : State) (c : Word) (dr : Reg) (ea : Word) :
    (s.setCond c).loadReg dr ea = s.loadReg dr ea := by
  unfold State.loadReg
  rw [State.memRead_setCond]
  rfl

theorem State.receive_setCond (s : State) (c : Word) (svc : InputService) (v : Word) :
    (s.setCond c).receive svc v = s.receive svc v ∨ (s.setCond c).receive svc v = (s.receive svc v).setCond c := by
  obtain ⟨regs, pc, cond, run, abortInfo, mem, held, consoleIn, ended, out, log, cfg⟩ := s
  obtain ⟨slot, clear, setsFlags, prompt, message, start, reports⟩ := cfg
  cases svc <;> cases setsFlags
  case getc.false => exact .inr rfl
  case inEcho.false => exact .inr rfl
  case getc.true => exact .inl rfl
  case inEcho.true => exact .inl rfl

theorem State.inputService_setCond (s : State) (c : Word) (svc : InputService) :
    (s.setCond c).inputService svc = s.inputService svc ∨
    (s.setCond c).inputService svc = (s.inputService svc).setCond c := by
  obtain ⟨regs, pc, cond, run, abortInfo, mem, held, consoleIn, ended, out, log, cfg⟩ := s
  cases hk : nextKey consoleIn with
  | some p =>
    simp only [State.inputService, State.consoleGet, State.setCond, hk]
    exact State.receive_setCond (State.setHeld ⟨regs, pc, cond, run, abortInfo, mem, held, p.2, ended, out, log, cfg⟩
      none) c svc (zext p.1)
  | none =>
    cases ended
    · simp only [State.inputService, State.consoleGet, State.setCond, hk]
      exact .inr rfl
    · simp only [State.inputService, State.consoleGet, State.setCond, hk]
      exact State.receive_setCond (State.setHeld ⟨regs, pc, cond, run, abortInfo, mem, held, consoleIn, true, out, log,
        cfg⟩ none) c svc eofValue

/-- What GETC and IN do with the value read (R222, R226, R230): every field but R0, COND and the output is kept. -/
theorem State.receive_fields (s : State) (svc : InputService) (v : Word) :
    (s.receive svc v).reg .r0 = v ∧ (∀ r, r ≠ .r0 → (s.receive svc v).reg r = s.reg r) ∧
    (s.receive svc v).pc = s.pc ∧ (s.receive svc v).mem = s.mem ∧ (s.receive svc v).held = s.held ∧
    (s.receive svc v).cond = (if s.cfg.trapInSetsFlags then condOf v else s.cond) ∧
    (s.receive svc v).consoleIn = s.consoleIn ∧ (s.receive svc v).log = s.log ∧
    (s.receive svc v).consoleOut = (if svc = .inEcho then s.consoleOut ++ [lowChar v] else s.consoleOut) := by
  have hr : ∀ r : Reg, r ≠ .r0 → ((s.regs.set .r0 v).get r) = s.regs.get r := fun r h => by simp [Regs.get_set, h]
  obtain ⟨regs, pc, cond, run, abortInfo, mem, held, consoleIn, ended, out, log, cfg⟩ := s
  obtain ⟨slot, clear, setsFlags, prompt, message, start, reports⟩ := cfg
  cases svc <;> cases setsFlags <;> exact ⟨rfl, hr, rfl, rfl, rfl, rfl, rfl, rfl, rfl⟩

end Sys2Proof.Machine
end

