-- ==== Sys2Proof/Laws/Decode.lean ====
section
/-! SUPPORT. The laws of fields, widening and register names that proofs about decoding and encoding rest on. -/

namespace Sys2Proof

theorem field_and (w m : Word) (lo len : Nat) : field (w &&& m) lo len = field w lo len &&& field m lo len := by
  simp [field, BitVec.extractLsb'_and]

/-- A word that shows c under the mask m has c's field wherever m is all ones. -/
theorem field_of_masked {w m c : Word} {lo len : Nat} (h : w &&& m = c) (hm : field m lo len = BitVec.allOnes len) :
    field w lo len = field c lo len := by
  rw [← h, field_and, hm, BitVec.and_allOnes]

/-- The same for one bit. -/
theorem bit_of_masked {w m c : Word} {j : Nat} (h : w &&& m = c) (hm : m.getLsbD j = true) :
    w.getLsbD j = c.getLsbD j := by
  rw [← h, BitVec.getLsbD_and, hm, Bool.and_true]

@[simp] theorem Reg.ofBits_toBits (r : Reg) : Reg.ofBits r.toBits = r := by cases r <;> rfl

/-- The bits of sext_N (R23). -/
theorem getLsbD_sext {n : Nat} (v : BitVec n) (h1 : 1 ≤ n) {j : Nat} (hj : j < 16) :
    (sext n v).getLsbD j = if j < n then v.getLsbD j else v.getLsbD (n - 1) := by
  unfold sext
  have e : (0xFFFF#16) = BitVec.allOnes 16 := by decide
  by_cases hjn : j < n <;> by_cases hs : v.getLsbD (n - 1) = true
  all_goals
    first | rw [if_pos hs] | rw [if_neg hs]
    simp only [e, BitVec.getLsbD_or, BitVec.getLsbD_setWidth, BitVec.getLsbD_shiftLeft, BitVec.getLsbD_allOnes, hj,
      hjn, decide_true, decide_false, Bool.true_and, Bool.false_and, Bool.not_true, Bool.not_false, Bool.or_false,
      if_true, if_false]
  · simp [hs, show j - n < 16 by omega]
  · simp [hs, BitVec.getLsbD_of_ge v j (by omega)]

theorem sext_eq_signExtend {n : Nat} (v : BitVec n) (h1 : 1 ≤ n) : sext n v = v.signExtend 16 := by
  apply BitVec.eq_of_getLsbD_eq
  intro j hj
  rw [getLsbD_sext v h1 hj, BitVec.getLsbD_signExtend]
  simp [hj, BitVec.msb_eq_getLsbD_last]

/-- What sext_N gives lies in the range of its field. -/
theorem fitsSigned_sext {n : Nat} (v : BitVec n) (h1 : 1 ≤ n) (h2 : n ≤ 16) : fitsSigned n (sext n v) = true := by
  rw [sext_eq_signExtend v h1, fitsSigned, BitVec.toInt_signExtend_of_le h2]
  have := BitVec.le_toInt v
  have := BitVec.toInt_lt (x := v)
  simp_all

/-- A value in the range of its field is what sext_N gives of its low bits. -/
theorem sext_setWidth {n : Nat} (v : Word) (h1 : 1 ≤ n) (h2 : n ≤ 16) (h : fitsSigned n v = true) :
    sext n (v.setWidth n) = v := by
  rw [sext_eq_signExtend _ h1]
  apply BitVec.eq_of_toInt_eq
  rw [BitVec.toInt_signExtend_of_le h2, BitVec.toInt_setWidth]
  simp only [fitsSigned, Bool.and_eq_true, decide_eq_true_eq] at h
  have hp : (2 : Int) ^ n = 2 * 2 ^ (n - 1) := by
    obtain ⟨m, rfl⟩ : ∃ m, n = m + 1 := ⟨n - 1, by omega⟩
    rw [Int.pow_succ, Nat.add_sub_cancel]
    omega
  have hb : (v.toNat : Int).bmod (2 ^ n) = v.toInt.bmod (2 ^ n) := by
    rw [BitVec.toInt_eq_toNat_bmod, Int.bmod_bmod_of_dvd]
    exact Nat.pow_dvd_pow 2 h2
  rw [hb, Int.bmod_eq_of_le]
  all_goals push_cast; omega

end Sys2Proof
end

