-- ==== Sys2Proof/Laws/Device.lean ====
section
/-! SUPPORT. The spec lemmas of the dispatcher and the block device (spec/60_exceptions.md R265 to R278): what a store at
the doorbell comes to, by cases, and which words a served request writes. -/

namespace Sys2Proof.Machine

/-! Where the device's words lie. -/

theorem toNat_descAddr {i : Word} (h : i.toNat < nDesc) : (descAddr i).toNat = 0x8003 + 4 * i.toNat := by
  simp only [descAddr, ringBase, nDesc] at *
  simp only [BitVec.toNat_add, BitVec.toNat_mul, BitVec.toNat_ofNat]
  omega

theorem toNat_descFlagsAddr {i : Word} (h : i.toNat < nDesc) : (descFlagsAddr i).toNat = 0x8005 + 4 * i.toNat := by
  have h1 := toNat_descAddr h
  simp only [nDesc] at h
  simp only [descFlagsAddr, BitVec.toNat_add, BitVec.toNat_ofNat, h1]
  omega

theorem ne_of_toNat {a b : Word} (h : a.toNat ≠ b.toNat) : a ≠ b := fun e => h (congrArg _ e)

theorem doorbell_ne (c : Config) {a : Word} (h : 0x200 ≤ a.toNat) : a ≠ c.virtioEntry :=
  ne_of_toNat (by have := (virtioEntry_bounds c).2; omega)

theorem header_ne_doorbell (c : Config) : availFlagsAddr ≠ c.virtioEntry ∧ availIdxAddr ≠ c.virtioEntry ∧
    usedFlagsAddr ≠ c.virtioEntry ∧ usedIdxAddr ≠ c.virtioEntry :=
  ⟨doorbell_ne c (by decide), doorbell_ne c (by decide), doorbell_ne c (by decide), doorbell_ne c (by decide)⟩

theorem descFlags_ne {i : Word} (h : i.toNat < nDesc) (c : Config) :
    descFlagsAddr i ≠ c.virtioEntry ∧ descFlagsAddr i ≠ availFlagsAddr ∧ descFlagsAddr i ≠ availIdxAddr ∧
    descFlagsAddr i ≠ usedFlagsAddr ∧ descFlagsAddr i ≠ usedIdxAddr := by
  have h1 := toNat_descFlagsAddr h
  refine ⟨doorbell_ne c (by omega), ?_, ?_, ?_, ?_⟩ <;> refine ne_of_toNat ?_ <;> rw [h1] <;>
    simp only [availFlagsAddr, availIdxAddr, usedFlagsAddr, usedIdxAddr, ringBase, BitVec.toNat_add,
      BitVec.toNat_ofNat] <;> omega

/-! A store at the doorbell (R265, R271 to R274). -/

/-- What the dispatcher does with a served request (R265, R270). -/
def State.answered (s : State) (i e : Word) : State :=
  match s.serve i with
  | (s', .replay) => s'.rawWrite e completionCode
  | (s', .noReplay) => s'

/-- A store at the doorbell, by cases: a plain store without a kick or an announcement; a consumed announcement, and the
report of it where there is one, when the index or the descriptor is bad; otherwise the request is served in the cleared state. -/
theorem State.memWrite_doorbell_cases (s : State) (v : Word) (hw : Memory.wf s.mem = true) :
    let i := s.rawRead availIdxAddr
    ((v.getLsbD 0 = false ∨ s.rawRead availFlagsAddr = 0#16) ∧
      s.memWrite s.cfg.virtioEntry v = s.rawWrite s.cfg.virtioEntry v) ∨
    ((v.getLsbD 0 = true ∧ s.rawRead availFlagsAddr ≠ 0#16 ∧
        (nDesc ≤ i.toNat ∨ s.rawRead (descFlagsAddr i) = 0#16)) ∧
      s.memWrite s.cfg.virtioEntry v =
        ((s.rawWrite s.cfg.virtioEntry v).rawWrite availFlagsAddr 0#16).reportDropped .noAllocatedDescriptor) ∨
    ((v.getLsbD 0 = true ∧ s.rawRead availFlagsAddr ≠ 0#16 ∧ i.toNat < nDesc ∧
        s.rawRead (descFlagsAddr i) ≠ 0#16) ∧
      s.memWrite s.cfg.virtioEntry v = (s.cleared v i).answered i s.cfg.virtioEntry) := by
  intro i
  obtain ⟨n1, n2, -, -⟩ := header_ne_doorbell s.cfg
  have hv : (s.rawWrite s.cfg.virtioEntry v).rawRead s.cfg.virtioEntry = v := s.rawRead_rawWrite_same _ v hw
  have hf : (s.rawWrite s.cfg.virtioEntry v).rawRead availFlagsAddr = s.rawRead availFlagsAddr :=
    s.rawRead_rawWrite_other v n1
  have hi : ((s.rawWrite s.cfg.virtioEntry v).rawWrite availFlagsAddr 0#16).rawRead availIdxAddr = i := by
    rw [State.rawRead_rawWrite_other _ _ (by decide), s.rawRead_rawWrite_other v n2]
  rw [s.memWrite_doorbell, State.dispatch, if_pos (by rfl), hv, State.handle, hf]
  simp only [hi]
  by_cases h0 : v.getLsbD 0 = false
  · exact .inl ⟨.inl h0, by rw [if_pos h0]⟩
  by_cases h1 : s.rawRead availFlagsAddr = 0#16
  · exact .inl ⟨.inr h1, by rw [if_neg h0, if_pos h1]⟩
  rw [if_neg h0, if_neg h1]
  have h0' : v.getLsbD 0 = true := by simpa using h0
  by_cases h2 : nDesc ≤ i.toNat
  · exact .inr (.inl ⟨⟨h0', h1, .inl h2⟩, by simp only [if_pos h2]⟩)
  have h2' : i.toNat < nDesc := by omega
  obtain ⟨m1, m2, -, -, -⟩ := descFlags_ne h2' s.cfg
  have hd : ((s.rawWrite s.cfg.virtioEntry v).rawWrite availFlagsAddr 0#16).rawRead (descFlagsAddr i) =
      s.rawRead (descFlagsAddr i) := by
    rw [State.rawRead_rawWrite_other _ _ m2, s.rawRead_rawWrite_other v m1]
  simp only [if_neg h2, hd]
  by_cases h3 : s.rawRead (descFlagsAddr i) = 0#16
  · exact .inr (.inl ⟨⟨h0', h1, .inr h3⟩, by simp only [if_pos h3]⟩)
  · exact .inr (.inr ⟨⟨h0', h1, h2', h3⟩, by simp only [if_neg h3]; rfl⟩)

/-- The cleared state: the doorbell holds the stored word, AVAIL_FLAGS and DESC[i].FLAGS are 0, and every other word is
as before. -/
theorem State.cleared_rawRead (s : State) (v : Word) {i : Word} (hw : Memory.wf s.mem = true) (hi : i.toNat < nDesc) :
    (s.cleared v i).rawRead s.cfg.virtioEntry = v ∧ (s.cleared v i).rawRead availFlagsAddr = 0#16 ∧
    (s.cleared v i).rawRead (descFlagsAddr i) = 0#16 ∧
    MemoryKept [s.cfg.virtioEntry, availFlagsAddr, descFlagsAddr i] s (s.cleared v i) := by
  obtain ⟨n1, -⟩ := header_ne_doorbell s.cfg
  obtain ⟨m1, m2, -⟩ := descFlags_ne hi s.cfg
  have w1 : Memory.wf (s.rawWrite s.cfg.virtioEntry v).mem = true := s.rawWrite_wf _ _ hw
  have w2 : Memory.wf ((s.rawWrite s.cfg.virtioEntry v).rawWrite availFlagsAddr 0#16).mem = true :=
    State.rawWrite_wf _ _ _ w1
  unfold State.cleared
  refine ⟨?_, ?_, State.rawRead_rawWrite_same _ _ _ w2, fun x hx => ?_⟩
  · rw [State.rawRead_rawWrite_other _ _ m1.symm, State.rawRead_rawWrite_other _ _ n1.symm,
      State.rawRead_rawWrite_same _ _ _ hw]
  · rw [State.rawRead_rawWrite_other _ _ m2.symm, State.rawRead_rawWrite_same _ _ _ w1]
  · simp only [List.mem_cons, List.not_mem_nil, or_false, not_or] at hx
    rw [State.rawRead_rawWrite_other _ _ hx.2.2, State.rawRead_rawWrite_other _ _ hx.2.1,
      State.rawRead_rawWrite_other _ _ hx.1]

theorem State.cleared_frame (s : State) (v i : Word) : StoreFrame s (s.cleared v i) :=
  ((s.rawWrite_frame ..).trans (State.rawWrite_frame ..)).trans (State.rawWrite_frame ..)

/-! The fill of a block READ (R275). -/

/-- Different data words of one request have different addresses. -/
theorem dataAddr_inj {a : Word} {j k : Nat} (hj : j < 65536) (hk : k < 65536) (h : dataAddr a j = dataAddr a k) :
    j = k := by
  have := congrArg BitVec.toNat ((BitVec.add_right_inj _).1 h)
  simpa [BitVec.toNat_ofNat, Nat.mod_eq_of_lt hj, Nat.mod_eq_of_lt hk] using this

theorem State.synthFill_rawRead (s : State) (a position length : Word) (n : Nat) (hn : n ≤ 65536)
    (hw : Memory.wf s.mem = true) :
    (∀ k, k < n → (s.synthFill a position length n).rawRead (dataAddr a k) =
      Config.blkSynth position length (BitVec.ofNat 16 k)) ∧
    (∀ x, (∀ k, k < n → x ≠ dataAddr a k) → (s.synthFill a position length n).rawRead x = s.rawRead x) := by
  induction n with
  | zero => exact ⟨fun k hk => absurd hk (by omega), fun _ _ => rfl⟩
  | succ n ih =>
    obtain ⟨h1, h2⟩ := ih (by omega)
    have wf := (s.synthFill_frame a position length n).wf hw
    refine ⟨fun k hk => ?_, fun x hx => ?_⟩
    · by_cases hkn : k = n
      · subst hkn
        exact State.rawRead_rawWrite_same _ _ _ wf
      · have hne : dataAddr a k ≠ dataAddr a n := fun e => hkn (dataAddr_inj (by omega) (by omega) e)
        exact (State.rawRead_rawWrite_other _ _ hne).trans (h1 k (by omega))
    · exact (State.rawRead_rawWrite_other _ _ (hx n (by omega))).trans (h2 x fun k hk => hx k (by omega))

theorem State.synthFill_log (s : State) (a position length : Word) (n : Nat) :
    (s.synthFill a position length n).log = s.log := by
  induction n with
  | zero => rfl
  | succ n ih => exact ih

end Sys2Proof.Machine
end

