-- ==== Sys2Proof/Laws/HostPort.lean ====
section
/-! SUPPORT. The exit codes (spec/00_scope.md R21) and when the host may touch memory (spec/10_state.md R51). -/

namespace Sys2Proof

theorem le_foldr_max {taken : List Int} {k : Int} (h : k ∈ taken) : k ≤ taken.foldr max 0 := by
  induction taken with
  | nil => exact nomatch h
  | cons x xs ih =>
    rcases List.mem_cons.1 h with rfl | h
    · exact le_max_left _ _
    · exact (ih h).trans (le_max_right _ _)

/-- The code is not one of those taken. -/
theorem Config.otherThan_not_mem (taken : List Int) (k : Int) : Config.otherThan taken k ∉ taken := by
  unfold Config.otherThan
  split
  · exact fun h => absurd (le_foldr_max h) (by omega)
  · assumption

/-- Every code that is not taken is allowed. -/
theorem Config.otherThan_of_not_mem {taken : List Int} {k : Int} (h : k ∉ taken) : Config.otherThan taken k = k :=
  if_neg h

theorem Config.exitNoArg_ne_zero : Config.exitNoArg ≠ 0 := fun h =>
  Config.otherThan_not_mem [Config.exitHalt] Config.freeNoArg (List.mem_singleton.2 h)

theorem Config.exitLoadFail_ne_zero : Config.exitLoadFail ≠ 0 := fun h =>
  Config.otherThan_not_mem [Config.exitHalt] Config.freeLoadFail (List.mem_singleton.2 h)

/-- EXIT_SIGNAL is non-zero and distinct from every other exit code (R21). -/
theorem Config.exitSignal_distinct : Config.exitSignal ≠ 0 ∧ Config.exitSignal ≠ Config.exitNoArg ∧
    Config.exitSignal ≠ Config.exitLoadFail ∧ Config.exitSignal ≠ Config.exitAbort := by
  have h : Config.exitSignal ∉ [Config.exitHalt, Config.exitNoArg, Config.exitLoadFail, Config.exitAbort] :=
    Config.otherThan_not_mem _ _
  simp only [List.mem_cons, List.not_mem_nil, or_false, not_or] at h
  exact h

namespace Machine

/-- Between steps the host is answered. -/
theorem State.between_of_not_held {α : Type} {s : State} (h : s.held = none) (x : α) : s.between x = some x := if_pos h

/-- While a step is held the host touches no memory. -/
theorem State.between_of_held {α : Type} {s : State} (h : s.held ≠ none) (x : α) : s.between x = none := if_neg h

end Machine

end Sys2Proof
end

