-- ==== Sys2Proof/Laws/Operands.lean ====
section
/-! SUPPORT. One spec lemma for each shared operation of the meanings: the branch test, the register load, the store. -/

namespace Sys2Proof.Machine

/-- BR's test, bit by bit (R170). -/
theorem branchTaken_iff (n z p : Bool) (c : Word) : branchTaken n z p c = true ↔
    ((n = true ∧ c.getLsbD 2 = true) ∨ (z = true ∧ c.getLsbD 1 = true) ∨ (p = true ∧ c.getLsbD 0 = true)) := by
  have key : ∀ x : BitVec 3, x ≠ 0#3 ↔ (x.getLsbD 2 = true ∨ x.getLsbD 1 = true ∨ x.getLsbD 0 = true) := by decide
  have hb : ∀ j, j < 3 → (field c 0 3).getLsbD j = c.getLsbD j := by
    intro j hj
    simp only [field, BitVec.getLsbD_extractLsb', hj]
    simp
  simp only [branchTaken, decide_eq_true_eq]
  rw [key]
  simp only [BitVec.getLsbD_and, hb 2 (by omega), hb 1 (by omega), hb 0 (by omega), Bool.and_eq_true]
  cases n <;> cases z <;> cases p <;> simp

/-- Every result sets COND to one of its three values (R26, R37). -/
theorem condLegal_condOf (v : Word) : CondLegal (condOf v) := by
  unfold condOf CondLegal
  split
  · exact .inr (.inl rfl)
  · split
    · exact .inr (.inr rfl)
    · exact .inl rfl

/-- Everything a register load does. -/
theorem State.loadReg_loaded (s : State) (dr : Reg) (ea : Word) : Loaded dr ea s (s.loadReg dr ea) := by
  have f := s.memRead_frame ea
  refine ⟨by simp [State.loadReg], rfl, fun r hr => ?_, f.pc, ⟨f.run, f.abortInfo, f.held, f.cfg⟩, fun _ _ => rfl,
    ⟨⟨rfl, rfl, rfl⟩, rfl⟩, fun h => ?_, fun _ => ⟨f.mem, f.consoleOut, f.log⟩⟩
  · simp only [List.mem_singleton] at hr
    simp [State.loadReg, hr, f.reg]
  · simp [State.loadReg, s.memRead_plain h, MemoryKept, PortsKept, ConsoleKept]

/-- Everything an instrumented store does. -/
theorem State.memWrite_stored (s : State) (ea v : Word) (hw : Memory.wf s.mem = true) :
    Stored ea v s (s.memWrite ea v) := by
  have f := s.memWrite_frame ea v
  refine ⟨fun r _ => f.reg r, f.pc, f.cond, ⟨f.run, f.abortInfo, f.held, f.cfg⟩,
    ⟨f.consoleIn, f.consoleEnded, f.consoleOut⟩, fun h => ?_, ?_⟩
  · rw [s.memWrite_plain v h]
    exact ⟨s.rawRead_rawWrite_same _ _ hw, fun a ha => s.rawRead_rawWrite_other _ (by simpa using ha), rfl⟩
  · rintro rfl
    rw [s.memWrite_doorbell]
    exact ⟨fun _ _ => rfl, rfl⟩

end Sys2Proof.Machine
end

