-- ==== Sys2Proof/Laws/PerInstr.lean ====
section
/-! SUPPORT. Per instruction: its encoding matches its row of spec/opcode_table.json under the row's mask, whatever its
operands (spec/30_encoding.md R113 to R120). -/

namespace Sys2Proof.Laws.TableRow

/-- The row's mask. -/
def mask : Instr → Word
  | .add _ _ _ | .addi _ _ _ | .and _ _ _ | .andi _ _ _ => 0xF020#16
  | .jsr _ | .jsrr _ => 0xF800#16
  | .not _ _ | .br _ _ _ _ | .jmp _ | .ld _ _ | .ldi _ _ | .ldr _ _ _ | .lea _ _ | .st _ _ | .sti _ _ | .str _ _ _
  | .trap _ | .rti _ | .res _ => 0xF000#16

/-- The row's match. -/
def pattern : Instr → Word
  | .add _ _ _ => 0x1000#16
  | .addi _ _ _ => 0x1020#16
  | .and _ _ _ => 0x5000#16
  | .andi _ _ _ => 0x5020#16
  | .not _ _ => 0x9000#16
  | .br _ _ _ _ => 0x0000#16
  | .jmp _ => 0xC000#16
  | .jsr _ => 0x4800#16
  | .jsrr _ => 0x4000#16
  | .ld _ _ => 0x2000#16
  | .ldi _ _ => 0xA000#16
  | .ldr _ _ _ => 0x6000#16
  | .lea _ _ => 0xE000#16
  | .st _ _ => 0x3000#16
  | .sti _ _ => 0xB000#16
  | .str _ _ _ => 0x7000#16
  | .trap _ => 0xF000#16
  | .rti _ => 0x8000#16
  | .res _ => 0xD000#16

/-- The instruction's word shows its row's match under its row's mask. -/
def Statement (i : Instr) : Prop := encode i &&& mask i = pattern i

/-- Three registers leave 512 cases, each by computation. -/
theorem add (dr sr1 sr2 : Reg) : Statement (.add dr sr1 sr2) := by
  unfold Statement
  cases dr <;> cases sr1 <;> cases sr2 <;> rfl

theorem and (dr sr1 sr2 : Reg) : Statement (.and dr sr1 sr2) := by
  unfold Statement
  cases dr <;> cases sr1 <;> cases sr2 <;> rfl

theorem not (dr sr : Reg) : Statement (.not dr sr) := by
  unfold Statement
  cases dr <;> cases sr <;> rfl

theorem jmp (base : Reg) : Statement (.jmp base) := by unfold Statement; cases base <;> rfl

theorem jsrr (base : Reg) : Statement (.jsrr base) := by unfold Statement; cases base <;> rfl

/-- A word made of a high part x and a low part y shows c under a mask that shows nothing of y, when x does so. -/
theorem masked_append {n m : Nat} (x : BitVec n) (y : BitVec m) {p : BitVec n} {q : BitVec n} (h : x &&& p = q) :
    (x ++ y) &&& (p ++ 0#m) = q ++ 0#m := by
  rw [BitVec.and_append, h, BitVec.and_zero]

theorem addi (dr sr1 : Reg) (imm5 : Word) : Statement (.addi dr sr1 imm5) :=
  masked_append (0b0001#4 ++ dr.toBits ++ sr1.toBits ++ 0b1#1) (imm5.setWidth 5) (p := 0b11110000001#11)
    (q := 0b00010000001#11) (by cases dr <;> cases sr1 <;> rfl)

theorem andi (dr sr1 : Reg) (imm5 : Word) : Statement (.andi dr sr1 imm5) :=
  masked_append (0b0101#4 ++ dr.toBits ++ sr1.toBits ++ 0b1#1) (imm5.setWidth 5) (p := 0b11110000001#11)
    (q := 0b01010000001#11) (by cases dr <;> cases sr1 <;> rfl)

theorem br (n z p : Bool) (offset9 : Word) : Statement (.br n z p offset9) :=
  masked_append (0b0000#4 ++ BitVec.ofBool n ++ BitVec.ofBool z ++ BitVec.ofBool p) (offset9.setWidth 9)
    (p := 0b1111000#7) (q := 0b0000000#7) (by cases n <;> cases z <;> cases p <;> rfl)

theorem jsr (offset11 : Word) : Statement (.jsr offset11) :=
  masked_append 0b01001#5 (offset11.setWidth 11) (p := 0b11111#5) (q := 0b01001#5) rfl

theorem ld (dr : Reg) (offset9 : Word) : Statement (.ld dr offset9) :=
  masked_append (0b0010#4 ++ dr.toBits) (offset9.setWidth 9) (p := 0b1111000#7) (q := 0b0010000#7) (by cases dr <;> rfl)

theorem ldi (dr : Reg) (offset9 : Word) : Statement (.ldi dr offset9) :=
  masked_append (0b1010#4 ++ dr.toBits) (offset9.setWidth 9) (p := 0b1111000#7) (q := 0b1010000#7) (by cases dr <;> rfl)

theorem ldr (dr base : Reg) (offset6 : Word) : Statement (.ldr dr base offset6) :=
  masked_append (0b0110#4 ++ dr.toBits ++ base.toBits) (offset6.setWidth 6) (p := 0b1111000000#10)
    (q := 0b0110000000#10) (by cases dr <;> cases base <;> rfl)

theorem lea (dr : Reg) (offset9 : Word) : Statement (.lea dr offset9) :=
  masked_append (0b1110#4 ++ dr.toBits) (offset9.setWidth 9) (p := 0b1111000#7) (q := 0b1110000#7) (by cases dr <;> rfl)

theorem st (sr : Reg) (offset9 : Word) : Statement (.st sr offset9) :=
  masked_append (0b0011#4 ++ sr.toBits) (offset9.setWidth 9) (p := 0b1111000#7) (q := 0b0011000#7) (by cases sr <;> rfl)

theorem sti (sr : Reg) (offset9 : Word) : Statement (.sti sr offset9) :=
  masked_append (0b1011#4 ++ sr.toBits) (offset9.setWidth 9) (p := 0b1111000#7) (q := 0b1011000#7) (by cases sr <;> rfl)

theorem str (sr base : Reg) (offset6 : Word) : Statement (.str sr base offset6) :=
  masked_append (0b0111#4 ++ sr.toBits ++ base.toBits) (offset6.setWidth 6) (p := 0b1111000000#10)
    (q := 0b0111000000#10) (by cases sr <;> cases base <;> rfl)

theorem trap (vect8 : Byte) : Statement (.trap vect8) :=
  masked_append (0b1111#4 ++ 0b0000#4) vect8 (p := 0b11110000#8) (q := 0b11110000#8) rfl

theorem rti (low : BitVec 12) : Statement (.rti low) :=
  masked_append 0b1000#4 low (p := 0b1111#4) (q := 0b1000#4) rfl

theorem res (low : BitVec 12) : Statement (.res low) :=
  masked_append 0b1101#4 low (p := 0b1111#4) (q := 0b1101#4) rfl

end Sys2Proof.Laws.TableRow
end

