-- ==== Sys2Proof/Laws/Trap.lean ====
section
/-! SUPPORT. The string walk of PUTS and PUTSP (spec/43_trap.md R224, R225, R227): when it ends and what it gives. -/

namespace Sys2Proof.Machine

theorem add_ofNat_succ (a : Word) (k : Nat) : a + BitVec.ofNat 16 (k + 1) = a + 1#16 + BitVec.ofNat 16 k := by
  rw [BitVec.add_assoc, BitVec.add_comm 1#16, ← BitVec.ofNat_add]

theorem stringFrom_none (m : Memory) (n : Nat) (a : Word) :
    stringFrom m n a = none ↔ ∀ k, k < n → Memory.get m (a + BitVec.ofNat 16 k).toNat ≠ 0#16 := by
  induction n generalizing a with
  | zero => simp [stringFrom]
  | succ n ih =>
    simp only [stringFrom]
    split
    · rename_i h
      simp only [reduceCtorEq, false_iff]
      exact fun hh => hh 0 (by omega) (by simpa using h)
    · rename_i h
      rw [Option.map_eq_none_iff, ih]
      constructor
      · intro hh k hk
        cases k with
        | zero => simpa using h
        | succ k =>
          rw [add_ofNat_succ]
          exact hh k (by omega)
      · intro hh k hk
        rw [← add_ofNat_succ]
        exact hh (k + 1) (by omega)

theorem stringFrom_some (m : Memory) (n fuel : Nat) (a : Word) (hf : n < fuel)
    (hz : Memory.get m (a + BitVec.ofNat 16 n).toNat = 0#16)
    (hn : ∀ k, k < n → Memory.get m (a + BitVec.ofNat 16 k).toNat ≠ 0#16) :
    stringFrom m fuel a = some ((List.range n).map fun k => Memory.get m (a + BitVec.ofNat 16 k).toNat) := by
  induction n generalizing a fuel with
  | zero =>
    obtain ⟨f, rfl⟩ : ∃ f, fuel = f + 1 := ⟨fuel - 1, by omega⟩
    simp only [stringFrom]
    rw [if_pos (by simpa using hz)]
    rfl
  | succ n ih =>
    obtain ⟨f, rfl⟩ : ∃ f, fuel = f + 1 := ⟨fuel - 1, by omega⟩
    have ha : Memory.get m a.toNat ≠ 0#16 := by simpa using hn 0 (by omega)
    have hr := ih f (a + 1#16) (by omega) (by rw [← add_ofNat_succ]; exact hz)
      (fun k hk => by rw [← add_ofNat_succ]; exact hn (k + 1) (by omega))
    simp only [stringFrom]
    rw [if_neg ha, hr, List.range_succ_eq_map, List.map_cons, List.map_map, Option.map_some]
    congr 2
    · simp
    · refine List.map_congr_left fun k _ => ?_
      rw [← add_ofNat_succ]
      rfl

/-- The walk never ends exactly when no word of memory is zero (R225). -/
theorem State.string_none (s : State) : s.string = none ↔ NoZeroWord s := by
  unfold State.string
  rw [stringFrom_none]
  constructor
  · intro h a
    have := h (a - s.reg .r0).toNat (a - s.reg .r0).isLt
    rwa [BitVec.ofNat_toNat, BitVec.setWidth_eq, BitVec.add_comm, BitVec.sub_add_cancel] at this
  · exact fun h k _ => h _

/-- The walk gives the words up to the first zero word (R224). -/
theorem State.string_some (s : State) {n : Nat} (h : StringAt s (s.reg .r0) n) :
    s.string = some (stringWords s (s.reg .r0) n) := stringFrom_some s.mem n 65536 _ h.1 h.2.1 h.2.2

end Sys2Proof.Machine
end

