-- ==== Sys2Proof/Tests/Slice0.lean ====
section
/-! SUPPORT. The model's own tests. Expected values are those of spec/95_test_vectors.md (V<n>, E<n>) and of the formats of
spec/30_encoding.md, never the model's. Then a witness for the hypotheses of each statement of Obligations.lean. -/

namespace Sys2Proof.Tests

open Sys2Proof Sys2Proof.Machine

/-- The common start state of spec/95_test_vectors.md, with a word to run at 0x3000. -/
def at3000 (w : Word) : State := ({ State.reset with pc := 0x3000#16 } : State).rawWrite 0x3000#16 w

/-- One step answers a next state that p holds of. -/
def after (s : State) (p : State → Bool) : Bool :=
  match step s with
  | .next t => p t
  | _ => false

/-- Console input of characters alone, after which the input has ended. -/
def withKeys (s : State) (cs : List Byte) : State := s.supply (cs.map .key)

/-! Ill-formed instructions: one beyond each end of each field's range, and the ends themselves. -/

theorem test_wellFormed_imm5 :
    (Instr.addi .r0 .r0 16#16).wellFormed = false ∧ (Instr.andi .r0 .r0 0xFFEF#16).wellFormed = false ∧
    (Instr.addi .r0 .r0 15#16).wellFormed = true ∧ (Instr.andi .r0 .r0 0xFFF0#16).wellFormed = true := by decide

theorem test_wellFormed_offset9 :
    (Instr.br true true true 256#16).wellFormed = false ∧ (Instr.ld .r0 0xFEFF#16).wellFormed = false ∧
    (Instr.ldi .r0 256#16).wellFormed = false ∧ (Instr.lea .r0 0xFEFF#16).wellFormed = false ∧
    (Instr.st .r0 256#16).wellFormed = false ∧ (Instr.sti .r0 0xFEFF#16).wellFormed = false ∧
    (Instr.lea .r0 255#16).wellFormed = true ∧ (Instr.ld .r0 0xFF00#16).wellFormed = true := by decide

theorem test_wellFormed_offset11 :
    (Instr.jsr 1024#16).wellFormed = false ∧ (Instr.jsr 0xFBFF#16).wellFormed = false ∧
    (Instr.jsr 1023#16).wellFormed = true ∧ (Instr.jsr 0xFC00#16).wellFormed = true := by decide

theorem test_wellFormed_offset6 :
    (Instr.ldr .r0 .r0 32#16).wellFormed = false ∧ (Instr.str .r0 .r0 0xFFDF#16).wellFormed = false ∧
    (Instr.ldr .r0 .r0 31#16).wellFormed = true ∧ (Instr.str .r0 .r0 0xFFE0#16).wellFormed = true := by decide

/-! Decoding, on words written out field by field from R113 to R120. -/

/-- R113, R114, R115: opcode, DR, SR1, then 000 and SR2, or 1 and imm5; NOT has 111111. -/
theorem test_decode_operate :
    decode (0b0001#4 ++ 0b010#3 ++ 0b001#3 ++ 0b000#3 ++ 0b011#3) = .ok (.add .r2 .r1 .r3) ∧
    decode (0b0001#4 ++ 0b000#3 ++ 0b111#3 ++ 0b1#1 ++ 0b11110#5) = .ok (.addi .r0 .r7 0xFFFE#16) ∧
    decode (0b0101#4 ++ 0b011#3 ++ 0b001#3 ++ 0b000#3 ++ 0b010#3) = .ok (.and .r3 .r1 .r2) ∧
    decode (0b0101#4 ++ 0b011#3 ++ 0b001#3 ++ 0b1#1 ++ 0b01111#5) = .ok (.andi .r3 .r1 0x000F#16) ∧
    decode (0b1001#4 ++ 0b100#3 ++ 0b101#3 ++ 0b111111#6) = .ok (.not .r4 .r5) := by decide

/-- R116, R117, R118: BR's n, z, p and offset; BaseR in bits 8..6; JSR's mode bit 11. -/
theorem test_decode_control :
    decode (0b0000#4 ++ 0b101#3 ++ 0b100000000#9) = .ok (.br true false true 0xFF00#16) ∧
    decode (0b1100#4 ++ 0b000#3 ++ 0b010#3 ++ 0b000000#6) = .ok (.jmp .r2) ∧
    decode (0b0100#4 ++ 0b1#1 ++ 0b10000000000#11) = .ok (.jsr 0xFC00#16) ∧
    decode (0b0100#4 ++ 0b0#1 ++ 0b00#2 ++ 0b011#3 ++ 0b000000#6) = .ok (.jsrr .r3) := by decide

/-- R119: register and PCoffset9, or register, base and offset6. -/
theorem test_decode_loadStore :
    decode (0b0010#4 ++ 0b001#3 ++ 0b000000010#9) = .ok (.ld .r1 2#16) ∧
    decode (0b1010#4 ++ 0b110#3 ++ 0b111111111#9) = .ok (.ldi .r6 0xFFFF#16) ∧
    decode (0b0110#4 ++ 0b001#3 ++ 0b010#3 ++ 0b100000#6) = .ok (.ldr .r1 .r2 0xFFE0#16) ∧
    decode (0b1110#4 ++ 0b001#3 ++ 0b100000000#9) = .ok (.lea .r1 0xFF00#16) ∧
    decode (0b0011#4 ++ 0b111#3 ++ 0b111111110#9) = .ok (.st .r7 0xFFFE#16) ∧
    decode (0b1011#4 ++ 0b001#3 ++ 0b000000000#9) = .ok (.sti .r1 0#16) ∧
    decode (0b0111#4 ++ 0b101#3 ++ 0b010#3 ++ 0b011111#6) = .ok (.str .r5 .r2 31#16) := by decide

/-- R119: TRAP's vector in the low byte; the low twelve bits of RTI and RES are ignored. -/
theorem test_decode_system :
    decode (0b1111#4 ++ 0b0000#4 ++ 0b00100101#8) = .ok (.trap 0x25#8) ∧
    decode (0b1000#4 ++ 0b000000000000#12) = .ok (.rti 0#12) ∧
    decode (0b1101#4 ++ 0b000100100011#12) = .ok (.res 0x123#12) := by decide

/-- R126: V6 and V54. -/
theorem test_decode_ignored : decode 0x145B#16 = .ok (.add .r2 .r1 .r3) ∧ decode 0xFF25#16 = .ok (.trap 0x25#8) := by
  decide

/-- Bytes come high byte first, as in the image (R345); one byte alone is no instruction word (R110). -/
theorem test_decodeBytes :
    decodeBytes [0x10#8, 0x25#8, 0xF0#8] = .ok (.addi .r0 .r0 5#16, [0xF0#8]) ∧
    decodeBytes [0x10#8] = .error .truncated := by decide

/-- E1. -/
theorem test_sext : sext 5 0b11111#5 = 0xFFFF#16 ∧ sext 5 0b00001#5 = 0x0001#16 ∧ sext 5 0b10000#5 = 0xFFF0#16 ∧
    sext 5 0b01111#5 = 0x000F#16 ∧ sext 9 0x100#9 = 0xFF00#16 ∧ sext 11 0x400#11 = 0xFC00#16 ∧
    sext 6 0x20#6 = 0xFFE0#16 := by decide

/-- E2. -/
theorem test_condOf : condOf 0x0000#16 = condZro ∧ condOf 0x8000#16 = condNeg ∧ condOf 0xFFFF#16 = condNeg ∧
    condOf 0x7FFF#16 = condPos ∧ condOf 0x0001#16 = condPos := by decide

/-! Operate: V1 to V13. -/

/-- V1: the sum wraps. -/
theorem test_add_wraps : after (((at3000 0x1443#16).setReg .r1 0xFFFF#16).setReg .r3 0x0001#16)
    (fun t => t.reg .r2 == 0x0000#16 && t.cond == condZro && t.pc == 0x3001#16) = true := by decide

/-- V5: one register is both sources and the destination. -/
theorem test_add_same : after ((at3000 0x1B45#16).setReg .r5 0x4000#16)
    (fun t => t.reg .r5 == 0x8000#16 && t.cond == condNeg) = true := by decide

/-- V3. -/
theorem test_addi_min : after ((at3000 0x1030#16).setReg .r0 0x0010#16)
    (fun t => t.reg .r0 == 0x0000#16 && t.cond == condZro) = true := by decide

/-- V4. -/
theorem test_addi_max : after ((at3000 0x102F#16).setReg .r0 0xFFF0#16)
    (fun t => t.reg .r0 == 0xFFFF#16 && t.cond == condNeg) = true := by decide

/-- V7. -/
theorem test_and : after (((at3000 0x5642#16).setReg .r1 0xF0F0#16).setReg .r2 0x8F0F#16)
    (fun t => t.reg .r3 == 0x8000#16 && t.cond == condNeg) = true := by decide

/-- V8. -/
theorem test_andi_clear : after ((at3000 0x5660#16).setReg .r1 0xFFFF#16)
    (fun t => t.reg .r3 == 0x0000#16 && t.cond == condZro) = true := by decide

/-- V10: the immediate is sign-extended. -/
theorem test_andi_negative : after ((at3000 0x5670#16).setReg .r1 0x00FF#16)
    (fun t => t.reg .r3 == 0x00F0#16 && t.cond == condPos) = true := by decide

/-- V11. -/
theorem test_not_self : after (at3000 0x993F#16) (fun t => t.reg .r4 == 0xFFFF#16 && t.cond == condNeg) = true := by
  decide

/-- V13. -/
theorem test_not_other : after ((at3000 0x997F#16).setReg .r5 0x8000#16)
    (fun t => t.reg .r4 == 0x7FFF#16 && t.cond == condPos) = true := by decide

/-! Control: V14 to V27. -/

/-- V14, V15. -/
theorem test_br_zero : after ((at3000 0x0405#16).setCond condZro) (fun t => t.pc == 0x3006#16) = true ∧
    after (at3000 0x0405#16) (fun t => t.pc == 0x3001#16) = true := by decide

/-- V17, and V19: the target wraps. -/
theorem test_br_offsets : after ((at3000 0x0B00#16).setCond condNeg) (fun t => t.pc == 0x2F01#16) = true ∧
    after (((at3000 0#16).setPc 0xFFFF#16).rawWrite 0xFFFF#16 0x0E01#16) (fun t => t.pc == 0x0001#16) = true := by
  decide

/-- V22. -/
theorem test_jmp : after ((at3000 0xC080#16).setReg .r2 0x1234#16)
    (fun t => t.pc == 0x1234#16 && t.cond == condPos && t.reg .r7 == 0#16) = true := by decide

/-- V23. -/
theorem test_ret : after ((at3000 0xC1C0#16).setReg .r7 0x3050#16) (fun t => t.pc == 0x3050#16) = true := by
  decide

/-- V25. -/
theorem test_jsr_min : after (at3000 0x4C00#16) (fun t => t.reg .r7 == 0x3001#16 && t.pc == 0x2C01#16) = true := by
  decide

/-- V26. -/
theorem test_jsrr : after ((at3000 0x40C0#16).setReg .r3 0x4000#16)
    (fun t => t.reg .r7 == 0x3001#16 && t.pc == 0x4000#16) = true := by decide

/-- V27: R7 is written before it is read. -/
theorem test_jsrr_r7 : after ((at3000 0x41C0#16).setReg .r7 0x5000#16)
    (fun t => t.reg .r7 == 0x3001#16 && t.pc == 0x3001#16) = true := by decide

/-! Loads and stores: V28 to V38, and the keyboard, V39 to V43. -/

/-- V28. -/
theorem test_ld : after ((at3000 0x2202#16).rawWrite 0x3003#16 0x8001#16)
    (fun t => t.reg .r1 == 0x8001#16 && t.cond == condNeg) = true := by decide

/-- V29: it reads its own word. -/
theorem test_ld_self : after (at3000 0x23FF#16) (fun t => t.reg .r1 == 0x23FF#16 && t.cond == condPos) = true := by
  decide

/-- V30. -/
theorem test_ldi : after (((at3000 0xA200#16).setReg .r1 5#16).rawWrite 0x3001#16 0x4000#16)
    (fun t => t.reg .r1 == 0x0000#16 && t.cond == condZro) = true := by decide

/-- V31: the address wraps. -/
theorem test_ldr_wraps : after (((at3000 0x62A0#16).setReg .r2 0x0010#16).rawWrite 0xFFF0#16 0x0042#16)
    (fun t => t.reg .r1 == 0x0042#16 && t.cond == condPos) = true := by decide

/-- V42: KBDR is not polled. -/
theorem test_ldr_kbdr :
    after (withKeys (((at3000 0x6042#16).setReg .r1 0xFE00#16).rawWrite kbdrAddr 0x0061#16) [0x62#8])
      (fun t => t.reg .r0 == 0x0061#16 && t.consoleIn == [.key 0x62#8]) = true := by decide

/-- V33. -/
theorem test_lea : after (at3000 0xE300#16) (fun t => t.reg .r1 == 0x2F01#16 && t.cond == condPos) = true := by
  decide

/-- V34. -/
theorem test_lea_wraps : after (((at3000 0#16).setPc 0xFFFF#16).rawWrite 0xFFFF#16 0xE200#16)
    (fun t => t.reg .r1 == 0x0000#16 && t.cond == condZro && t.pc == 0x0000#16) = true := by decide

/-- V35. -/
theorem test_st : after (((at3000 0x33FE#16).setReg .r1 0xBEEF#16).setCond condZro)
    (fun t => t.rawRead 0x2FFF#16 == 0xBEEF#16 && t.cond == condZro) = true := by decide

/-- V38: the stored word is the next instruction, and halts. -/
theorem test_st_next : after ((at3000 0x3000#16).setReg .r0 0xF025#16)
    (fun t => t.rawRead 0x3001#16 == 0xF025#16 && after t (fun u => u.run == .halted)) = true := by decide

/-- V36. -/
theorem test_sti : after (((at3000 0xB200#16).setReg .r1 0x0007#16).rawWrite 0x3001#16 0x5000#16)
    (fun t => t.rawRead 0x5000#16 == 0x0007#16 && t.rawRead 0x3001#16 == 0x5000#16) = true := by decide

/-- V37. -/
theorem test_str_window : after (((at3000 0x7281#16).setReg .r1 0x0001#16).setReg .r2 0x0100#16)
    (fun t => t.rawRead 0x0101#16 == 0x0001#16 && t.log == []) = true := by decide

/-- V39: a key waits. -/
theorem test_poll_key : after (withKeys ((at3000 0xA000#16).rawWrite 0x3001#16 kbsrAddr) [0x61#8])
    (fun t => t.rawRead kbsrAddr == 0x8000#16 && t.rawRead kbdrAddr == 0x0061#16 && t.reg .r0 == 0x8000#16 &&
      t.cond == condNeg && t.consoleIn == []) = true := by decide

/-- The state of V40 and V41 before the poll. -/
def stalePoll : State :=
  (((at3000 0xA000#16).rawWrite 0x3001#16 kbsrAddr).rawWrite kbsrAddr 0x8000#16).rawWrite kbdrAddr 0x0061#16

/-- V40, V41: no key waits. -/
theorem test_poll_none :
    after stalePoll (fun t => t.rawRead kbdrAddr == 0#16 && t.rawRead kbsrAddr == 0x8000#16 &&
      t.reg .r0 == 0x8000#16) = true ∧
    after { stalePoll with cfg := { Config.initial with kbsrClearOnEmpty := true } }
      (fun t => t.rawRead kbdrAddr == 0#16 && t.rawRead kbsrAddr == 0#16 && t.reg .r0 == 0#16 &&
        t.cond == condZro) = true := by decide

/-- V43: the fetch polls, and the word it leaves is RTI. -/
theorem test_fetch_polls : after (withKeys ({ State.reset with pc := kbsrAddr } : State) [0x62#8])
    (fun t => t.rawRead kbsrAddr == 0x8000#16 && t.rawRead kbdrAddr == 0x0062#16 && t.run == .aborted &&
      t.abortInfo == some ⟨.abortRti, 0x8000#16, 0xFE00#16⟩) = true := by decide

/-! TRAP: V44 to V54. -/

/-- V44, V45, V46. -/
theorem test_getc :
    after (withKeys (at3000 0xF020#16) [0x41#8]) (fun t => t.reg .r0 == 0x0041#16 && t.reg .r7 == 0x3001#16 &&
      t.cond == condPos && t.consoleOut == []) = true ∧
    after (at3000 0xF020#16) (fun t => t.reg .r0 == 0xFFFF#16 && t.cond == condNeg) = true ∧
    after (withKeys ({ (at3000 0xF020#16).setCond condZro with
        cfg := { Config.initial with trapInSetsFlags := false } } : State) [0x41#8])
      (fun t => t.reg .r0 == 0x0041#16 && t.cond == condZro) = true := by decide

/-- R49, R305: with nothing supplied GETC is held, and completes when the host supplies a character. -/
theorem test_getc_held : after { at3000 0xF020#16 with consoleEnded := false }
    (fun t => t.held == some .getc && t.reg .r0 == 0#16 && after t (fun u => u == t) &&
      after (withKeys t [0x41#8]) (fun u => u.held == none && u.reg .r0 == 0x0041#16 && u.pc == 0x3001#16)) = true := by
  decide

/-- V47. -/
theorem test_out : after ((at3000 0xF021#16).setReg .r0 0x1241#16)
    (fun t => t.consoleOut == [0x41#8] && t.reg .r0 == 0x1241#16) = true := by decide

/-- The strings of V48 and V51. -/
def strings (w v : Word) : State := (((at3000 0#16).setReg .r0 0x4000#16).rawWrite 0x4000#16 v).rawWrite 0x4001#16 w

/-- V48, V49. -/
theorem test_puts :
    after ((strings 0x0069#16 0x0048#16).rawWrite 0x3000#16 0xF022#16)
      (fun t => t.consoleOut == [0x48#8, 0x69#8] && t.reg .r0 == 0x4000#16) = true ∧
    after ((at3000 0xF022#16).setReg .r0 0x4000#16) (fun t => t.consoleOut == []) = true := by decide

/-- V50. -/
theorem test_in : after (withKeys (at3000 0xF023#16) [0x7A#8])
    (fun t => t.consoleOut == [0x7A#8] && t.reg .r0 == 0x007A#16 && t.cond == condPos) = true := by decide

/-- V51. -/
theorem test_putsp : after ((strings 0x006C#16 0x6548#16).rawWrite 0x3000#16 0xF024#16)
    (fun t => t.consoleOut == [0x48#8, 0x65#8, 0x6C#8]) = true := by decide

/-- V52, V54, E8. -/
theorem test_halt :
    after (at3000 0xF025#16) (fun t => t.run == .halted && t.reg .r7 == 0x3001#16 && t.pc == 0x3001#16 &&
      t.exitStatus == some 0 && after t (fun u => u == t)) = true ∧
    after (at3000 0xFF25#16) (fun t => t.run == .halted) = true := by decide

/-- V53. -/
theorem test_unknown_vector : after ((at3000 0xF026#16).setReg .r7 0x1111#16)
    (fun t => t.reg .r7 == 0x3001#16 && t.pc == 0x3001#16 && t.run == .running &&
      t.log == [.unknownTrap 0x26#8]) = true := by decide

/-! Aborts: V55, V56. -/

/-- V55. -/
theorem test_rti : after (at3000 0x8000#16)
    (fun t => t.run == .aborted && t.abortInfo == some ⟨.abortRti, 0x8000#16, 0x3000#16⟩ && t.pc == 0x3001#16) = true := by
  decide

/-- V56. -/
theorem test_res : after ((at3000 0xD123#16).setReg .r1 0x0009#16)
    (fun t => t.run == .aborted && t.abortInfo == some ⟨.abortRes, 0xD123#16, 0x3000#16⟩ &&
      t.reg .r1 == 0x0009#16) = true := by decide

/-! The block device: V57 to V69. Fields that rest on BLK_SYNTH are not tested: its values are open. -/

/-- The default set-up of spec/95_test_vectors.md 2.7, with the operation, DESC[0].FLAGS, AVAIL_FLAGS and AVAIL_IDX given. -/
def ring (op flags avail idx : Word) : State :=
  (((((((((at3000 0#16).rawWrite 0x802B#16 op).rawWrite 0x802C#16 7#16).rawWrite 0x802D#16 2#16).rawWrite 0x802E#16
    0xAA00#16).rawWrite 0x802F#16 0xAA01#16).rawWrite 0x8005#16 flags).rawWrite 0x8000#16 idx).rawWrite 0x7FFF#16 avail)

/-- AVAIL_FLAGS, USED_FLAGS, USED_IDX, DESC[0].FLAGS and the doorbell word. -/
def ringWords (s : State) : List Word := [0x7FFF#16, 0x8001#16, 0x8002#16, 0x8005#16, 0x0180#16].map s.rawRead

/-- A READ of no data words, V67, with V61's kick, and then V68's second kick. -/
theorem test_block_read :
    ringWords (((ring 0#16 1#16 1#16 0#16).rawWrite 0x802D#16 0#16).memWrite 0x0180#16 3#16) =
      [0#16, 1#16, 0#16, 1#16, 2#16] ∧
    ringWords ((((ring 0#16 1#16 1#16 0#16).rawWrite 0x802D#16 0#16).memWrite 0x0180#16 1#16).memWrite 0x0180#16 1#16) =
      [0#16, 1#16, 0#16, 1#16, 1#16] := by decide

/-- V57's data words, S(0) and S(1). -/
theorem test_block_read_data :
    ((ring 0#16 1#16 1#16 0#16).synthFill 0x802B#16 7#16 2#16 2).rawRead 0x802E#16 = Config.blkSynth 7#16 2#16 0#16 ∧
    ((ring 0#16 1#16 1#16 0#16).synthFill 0x802B#16 7#16 2#16 2).rawRead 0x802F#16 = Config.blkSynth 7#16 2#16 1#16 := by
  have h := ((ring 0#16 1#16 1#16 0#16).synthFill_rawRead 0x802B#16 7#16 2#16 2 (by decide) (by decide)).1
  exact ⟨h 0 (by decide), h 1 (by decide)⟩

/-- V58. -/
theorem test_block_write :
    ringWords ((ring 1#16 1#16 1#16 0#16).memWrite 0x0180#16 1#16) = [0#16, 0#16, 0#16, 0#16, 2#16] ∧
    ((ring 1#16 1#16 1#16 0#16).memWrite 0x0180#16 1#16).log = [.blkWrite 7#16 2#16 [0xAA00#16, 0xAA01#16]] ∧
    ((ring 1#16 1#16 1#16 0#16).memWrite 0x0180#16 1#16).rawRead 0x802E#16 = 0xAA00#16 := by decide

/-- V59, V60, V62 to V65, V69. -/
theorem test_block_dropped :
    ringWords ((ring 0#16 1#16 1#16 0#16).memWrite 0x0180#16 0#16) = [1#16, 0#16, 0#16, 1#16, 0#16] ∧
    ringWords ((ring 0#16 1#16 1#16 0#16).memWrite 0x0180#16 2#16) = [1#16, 0#16, 0#16, 1#16, 2#16] ∧
    ringWords ((ring 0#16 1#16 0#16 0#16).memWrite 0x0180#16 1#16) = [0#16, 0#16, 0#16, 1#16, 1#16] ∧
    ringWords ((ring 0#16 1#16 1#16 10#16).memWrite 0x0180#16 1#16) = [0#16, 0#16, 0#16, 1#16, 1#16] ∧
    ringWords ((ring 0#16 0#16 1#16 0#16).memWrite 0x0180#16 1#16) = [0#16, 0#16, 0#16, 0#16, 1#16] ∧
    ringWords ((ring 2#16 1#16 1#16 0#16).memWrite 0x0180#16 1#16) = [0#16, 0#16, 0#16, 0#16, 1#16] ∧
    ringWords ((ring 0#16 1#16 1#16 0#16).memWrite 0x0181#16 1#16) = [1#16, 0#16, 0#16, 1#16, 0#16] := by decide

/-- V67, by an STR of the CPU. -/
theorem test_block_kick_by_store :
    after (((((ring 0#16 1#16 1#16 0#16).rawWrite 0x802D#16 0#16).rawWrite 0x3000#16 0x7280#16).setReg .r1 1#16).setReg
      .r2 0x0180#16)
      (fun t => ringWords t == [0#16, 1#16, 0#16, 1#16, 2#16] && t.rawRead 0x802E#16 == 0xAA00#16) = true := by
  decide

/-- E6: a WRITE and then a READ by a host-side driver; the READ of no data, whose words are open. -/
theorem test_submit :
    ((at3000 0#16).submit 1#16 7#16 2#16 [0xAA00#16, 0xAA01#16]).map (·.log) =
      some [.blkWrite 7#16 2#16 [0xAA00#16, 0xAA01#16]] ∧
    ((at3000 0#16).submit 1#16 7#16 2#16 [0xAA00#16, 0xAA01#16]).bind (·.response) = none ∧
    (((at3000 0#16).submit 1#16 7#16 2#16 [0xAA00#16, 0xAA01#16]).bind (·.submit 0#16 7#16 0#16 [])).map ringWords =
      some [0#16, 1#16, 0#16, 1#16, 2#16] := by decide

/-- R51: while GETC is held, the host's requests and accesses are not answered. -/
theorem test_host_held :
    ((at3000 0#16).setHeld (some .getc)).submit 0#16 7#16 0#16 [] = none ∧
    ((at3000 0#16).setHeld (some .getc)).hostRead 0x3000#16 = none ∧
    (at3000 0x1025#16).hostRead 0x3000#16 = some 0x1025#16 := by decide

/-- R55: a running machine can be stopped, one that has ended cannot. -/
theorem test_externalStop : (at3000 0#16).externalStop = some (at3000 0#16, Config.exitSignal) ∧
    (at3000 0#16).halt.externalStop = none := ⟨rfl, rfl⟩

/-- R264, where dropped requests are reported. -/
theorem test_dropped_reported :
    (({ ring 2#16 1#16 1#16 0#16 with cfg := { Config.initial with logsDroppedRequests := true } } : State).memWrite
      0x0180#16 1#16).log = [.unsupportedOperation] ∧
    (({ ring 0#16 1#16 1#16 10#16 with cfg := { Config.initial with logsDroppedRequests := true } } : State).memWrite
      0x0180#16 1#16).log = [.noAllocatedDescriptor] := by decide

/-- E5. -/
theorem test_findEmpty : State.reset.findEmptyWord = 0#16 ∧
    ((State.reset.rawWrite 0x8005#16 1#16).rawWrite 0x8009#16 1#16).findEmptyWord = 2#16 := by decide

/-! Reset and image load: V70 to V75. -/

/-- V70. -/
theorem test_reset_ring : State.reset.rawRead 0x8003#16 = 0x802B#16 ∧ State.reset.rawRead 0x8004#16 = 0x0080#16 ∧
    State.reset.rawRead 0x8006#16 = 0x0001#16 ∧ State.reset.rawRead 0x8027#16 = 0x84AB#16 ∧
    State.reset.rawRead 0x802A#16 = 0x0000#16 ∧ State.reset.rawRead 0x802B#16 = 0x0000#16 ∧
    State.reset.rawRead 0x8002#16 = 0x0000#16 := by decide

/-- V71, V72. -/
theorem test_image_ceiling :
    (State.reset.loadImage [0xFF#8, 0xFE#8, 0x12#8, 0x34#8, 0x56#8, 0x78#8, 0x9A#8]).map (·.mem) =
      some [(0xFFFE, 0x1234#16), (0xFFFF, 0x5678#16)] ∧
    (State.reset.loadImage [0xFF#8, 0xFF#8, 0x12#8, 0x34#8, 0x56#8, 0x78#8]).map (·.mem) =
      some [(0xFFFF, 0x1234#16)] := by decide

/-- V73, V74, V75, and R344's other failures. -/
theorem test_image_corners : State.reset.loadImage [0x30#8, 0x00#8] = some State.reset ∧
    launch Config.initial (.file [0x30#8]) = .loadFailed ∧
    launch Config.initial .unreadable = .loadFailed ∧ launch Config.initial .missing = .noArgument ∧
    (State.reset.loadImage [0x01#8, 0x80#8, 0x00#8, 0x01#8]).map (·.mem) = some [(0x0180, 0x0001#16)] := by decide

/-- E7, E9: the launch of the end-to-end image starts at 0x3000 with its first instruction. -/
theorem test_launch :
    (match launch Config.initial (.file [0x30#8, 0x00#8, 0x10#8, 0x25#8, 0x10#8, 0x3E#8, 0xF0#8, 0x25#8]) with
    | .started s => s.pc == 0x3000#16 && s.rawRead 0x3001#16 == 0x103E#16 && after s (fun t => t.reg .r0 == 0x0005#16)
    | _ => false) = true := by decide

/-- The host's two questions on a row: the decoder reads it, and the first step after reset runs it. -/
theorem test_table_word : decodeTableWord 16 0x1025 = some (.addi .r0 .r0 5#16) ∧
    after (State.reset.withFetchWord 16 0x1025) (fun t => t.reg .r0 == 5#16 && t.pc == 0x0001#16) = true := by
  decide

/-! Witnesses: states and operands that meet the hypotheses of the statements, each clause's among them, at the bounds of
their ranges. A statement with no hypotheses has none. -/

theorem witness_SextWidensZextPads : (1 ≤ 1 ∧ 1 < 16 ∧ (1#1).getLsbD (1 - 1) = true) ∧
    (1 ≤ 15 ∧ 15 < 16 ∧ (0x3FFF#15).getLsbD (15 - 1) = false) := by decide

theorem witness_SetccWritesCondBySign : (0x8000#16).getLsbD 15 = true ∧ (0xFFFF#16).getLsbD 15 = true ∧
    (0x7FFF#16 ≠ 0#16 ∧ (0x7FFF#16).getLsbD 15 = false) ∧ (1#16 ≠ 0#16 ∧ (1#16).getLsbD 15 = false) := by decide

theorem witness_DecodeOfEncode : (Instr.addi .r7 .r0 0xFFF0#16).wellFormed = true ∧
    (Instr.jsr 0x03FF#16).wellFormed = true ∧ (Instr.rti 0xFFF#12).wellFormed = true := by decide

/-- One word of each row, its fields and ignored bits all ones. -/
theorem witness_TableRowsDecode :
    0x1FDF#16 &&& 0xF020#16 = 0x1000#16 ∧ 0x1FFF#16 &&& 0xF020#16 = 0x1020#16 ∧ 0x5FDF#16 &&& 0xF020#16 = 0x5000#16 ∧
    0x5FFF#16 &&& 0xF020#16 = 0x5020#16 ∧ 0x9FFF#16 &&& 0xF000#16 = 0x9000#16 ∧ 0x0FFF#16 &&& 0xF000#16 = 0x0000#16 ∧
    0xCFFF#16 &&& 0xF000#16 = 0xC000#16 ∧ 0x4FFF#16 &&& 0xF800#16 = 0x4800#16 ∧ 0x47FF#16 &&& 0xF800#16 = 0x4000#16 ∧
    0x2FFF#16 &&& 0xF000#16 = 0x2000#16 ∧ 0xAFFF#16 &&& 0xF000#16 = 0xA000#16 ∧ 0x6FFF#16 &&& 0xF000#16 = 0x6000#16 ∧
    0xEFFF#16 &&& 0xF000#16 = 0xE000#16 ∧ 0x3FFF#16 &&& 0xF000#16 = 0x3000#16 ∧ 0xBFFF#16 &&& 0xF000#16 = 0xB000#16 ∧
    0x7FFF#16 &&& 0xF000#16 = 0x7000#16 ∧ 0xFFFF#16 &&& 0xF000#16 = 0xF000#16 ∧ 0x8FFF#16 &&& 0xF000#16 = 0x8000#16 ∧
    0xDFFF#16 &&& 0xF000#16 = 0xD000#16 := by decide

theorem witness_IgnoredBitsIgnored :
    0x1443#16 &&& 0xF020#16 = 0x1000#16 ∧ 0x5642#16 &&& 0xF020#16 = 0x5000#16 ∧ 0x993F#16 &&& 0xF000#16 = 0x9000#16 ∧
    0xC080#16 &&& 0xF000#16 = 0xC000#16 ∧ 0x40C0#16 &&& 0xF800#16 = 0x4000#16 ∧ 0xF025#16 &&& 0xF000#16 = 0xF000#16 := by
  decide

/-- At 0x3000, and at KBSR_ADDR, where a fetch after a key reads 0x8000. -/
theorem witness_StepRunsDecodedInstruction :
    ((at3000 0x1025#16).run = .running ∧ (at3000 0x1025#16).held = none ∧
      decode ((at3000 0x1025#16).memRead 0x3000#16).1 = .ok (.addi .r0 .r0 5#16) ∧ 0x3000#16 ≠ kbsrAddr) ∧
    decode ((withKeys ((at3000 0#16).setPc kbsrAddr) [0x62#8]).memRead kbsrAddr).1 = .ok (.rti 0#12) := by decide

/-- The state after the fetch at 0x3000; each store form aims at 0x3001. And PC at the doorbell and at KBSR_ADDR. -/
theorem witness_StoredWordIsFetchedNext :
    let s := ((at3000 0x3000#16).setPc 0x3001#16).setReg .r1 0x3001#16
    Memory.wf s.mem = true ∧ (s.pc ≠ s.cfg.virtioEntry ∧ s.pc ≠ kbsrAddr) ∧ s.pcRel 0#16 = s.pc ∧
    ((s.rawWrite 0x3002#16 0x3001#16).indirect 1#16).1 = s.pc ∧ s.baseRel .r1 0#16 = s.pc ∧
    (s.run = .running ∧ s.held = none ∧ decode 0xF025#16 = .ok (.trap 0x25#8)) ∧
    (s.setPc 0x0180#16).pc = s.cfg.virtioEntry ∧ (s.setPc 0x0180#16).pcRel 0#16 = 0x0180#16 ∧
    (s.setPc kbsrAddr).pcRel 0#16 = kbsrAddr := by decide

theorem witness_PlacedWordRunsNext : Memory.wf State.reset.mem = true ∧ State.reset.pc ≠ kbsrAddr ∧
    decode 0xF025#16 = .ok (.trap 0x25#8) := by decide

/-- Halted, aborted, and the running steps that lead there. -/
theorem witness_RunStateChanges :
    (at3000 0#16).halt.run = .halted ∧ ((at3000 0#16).raiseAbort .abortRti 0#16).run = .aborted ∧
    (at3000 0xF025#16).run = .running ∧ after (at3000 0xF025#16) (fun t => t.run == .halted) = true ∧
    after (at3000 0x8FFF#16) (fun t => t.run == .aborted) = true ∧
    after (at3000 0xD000#16) (fun t => t.run == .aborted) = true := by decide

/-- A step from a state that meets the invariants: the hypotheses of StepKeepsCondLegal, StepKeepsMemoryForm,
StepKeepsAbortRecord, StepKeepsParameters and StepUsesPortsInOrder. -/
theorem witness_steps : (at3000 0x1025#16).Inv ∧ ∃ t, step (at3000 0x1025#16) = .next t := by
  refine ⟨⟨by decide, .inl rfl, ⟨fun h => (nomatch h), fun h => (nomatch h)⟩, fun h => absurd rfl h⟩, ?_⟩
  refine ⟨((at3000 0x1025#16).setPc 0x3001#16).setRegCc .r0 5#16, ?_⟩
  have h : (match step (at3000 0x1025#16) with
    | .next t => decide (t = ((at3000 0x1025#16).setPc 0x3001#16).setRegCc .r0 5#16)
    | _ => false) = true := by decide
  split at h
  · rename_i t ht
    rw [ht, of_decide_eq_true h]
  · exact nomatch h

/-- Held, and aborted with its record: the other states the invariants speak of. -/
theorem witness_StepKeepsAbortRecord :
    (AbortRecorded ((at3000 0#16).raiseAbort .abortRes 0xD123#16) ∧
      HeldWhileRunning ((at3000 0#16).raiseAbort .abortRes 0xD123#16)) ∧
    (AbortRecorded ((at3000 0#16).setHeld (some .getc)) ∧ HeldWhileRunning ((at3000 0#16).setHeld (some .getc))) :=
  ⟨⟨⟨fun _ => rfl, fun _ => rfl⟩, fun h => absurd rfl h⟩,
    ⟨⟨fun h => (nomatch h), fun h => (nomatch h)⟩, fun _ => rfl⟩⟩

/-- A register form, and GETC with a character waiting. -/
theorem witness_OnlyListedInstructionsWriteCond :
    (∃ t, exec (.add .r0 .r1 .r2) (at3000 0#16) = .next t) ∧
    (∃ t, exec (.trap 0x20#8) (withKeys (at3000 0#16) [0x41#8]) = .next t) := ⟨⟨_, rfl⟩, ⟨_, rfl⟩⟩

/-! A memory with no zero word, every word 0xFFFF. -/

theorem get_map_const (v : Word) (l : List Nat) (a : Nat) (h : a ∈ l) :
    Memory.get (l.map fun b => (b, v)) a = v := by
  induction l with
  | nil => exact nomatch h
  | cons b l ih =>
    by_cases hab : a = b
    · simp [Memory.get, hab]
    · simpa [Memory.get, hab] using ih ((List.mem_cons.1 h).resolve_left hab)

/-- Every word below n is 0xFFFF. -/
def filled (n : Nat) : State := { State.reset with mem := (List.range n).map fun a => (a, 0xFFFF#16) }

theorem filled_rawRead (n : Nat) (a : Word) (h : a.toNat < n) : (filled n).rawRead a = 0xFFFF#16 :=
  get_map_const 0xFFFF#16 (List.range n) a.toNat (List.mem_range.2 h)

theorem filled_noZeroWord : NoZeroWord (filled 65536) := fun a h => by
  rw [filled_rawRead 65536 a a.isLt] at h
  exact absurd h (by decide)

theorem puts_stops (s : State) (h : NoZeroWord s) : exec (.trap 0x22#8) s = .fault .stringNeverEnds := by
  have hs : s.link.string = none := (State.string_none s.link).2 h
  show s.link.servicePuts = _
  simp only [State.servicePuts, hs]

/-- A NOT, and a PUTS that stops. -/
theorem witness_OnlyBrReadsCond :
    (∀ n z p off, Instr.not .r0 .r1 ≠ .br n z p off) ∧ (∃ t, exec (.not .r0 .r1) (at3000 0#16) = .next t) ∧
    exec (.trap 0x22#8) (filled 65536) = .fault .stringNeverEnds := by
  refine ⟨fun _ _ _ _ h => (nomatch h), ⟨_, rfl⟩, ?_⟩
  exact puts_stops _ filled_noZeroWord

/-- Taken by each flag, not taken, and always. -/
theorem witness_BranchEffect : condNeg.getLsbD 2 = true ∧ condZro.getLsbD 1 = true ∧ condPos.getLsbD 0 = true ∧
    (condPos.getLsbD 2 = false ∧ condPos.getLsbD 1 = false) ∧ CondLegal condZro :=
  ⟨by decide, by decide, by decide, by decide, .inr (.inl rfl)⟩

theorem witness_BranchNeverIsNop : State.reset.run = .running ∧ State.reset.held = none ∧ State.reset.pc ≠ kbsrAddr ∧
    State.reset.rawRead State.reset.pc = 0x0000#16 := by decide

theorem witness_JsrrEffect : Reg.r3 ≠ .r7 := by decide

/-- LDI with a pointer away from KBSR_ADDR to a datum away from it, and STI likewise. -/
theorem witness_LdiEffect_StiEffect :
    let s := ((at3000 0xA200#16).setPc 0x3001#16).rawWrite 0x3001#16 0x4000#16
    Memory.wf s.mem = true ∧ s.pc + 0#16 ≠ kbsrAddr ∧ s.rawRead (s.pc + 0#16) ≠ kbsrAddr := by decide

/-- Stores to the doorbell and elsewhere from a well-formed memory (StEffect, StrEffect and their Stored). -/
theorem witness_StEffect_StrEffect : Memory.wf (at3000 0#16).mem = true ∧
    0x0180#16 = (at3000 0#16).cfg.virtioEntry ∧ 0x0181#16 ≠ (at3000 0#16).cfg.virtioEntry := by decide

/-- No event, a poll that finds nothing, a waiting character, under both values of KBSR_CLEAR_ON_EMPTY. -/
theorem witness_MemReadPollsKeyboard :
    Memory.wf stalePoll.mem = true ∧ 0xFE01#16 ≠ kbsrAddr ∧ 0xFDFF#16 ≠ kbsrAddr ∧ stalePoll.consoleIn = [] ∧
    (stalePoll.supply [.quiet]).consoleIn = .quiet :: [] ∧ (withKeys stalePoll [0x61#8]).consoleIn = .key 0x61#8 :: [] ∧
    stalePoll.cfg.kbsrClearOnEmpty = false ∧
    ({ stalePoll with cfg := { Config.initial with kbsrClearOnEmpty := true } } : State).cfg.kbsrClearOnEmpty = true := by
  decide

/-- Both ends of the window, and the addresses just outside it. -/
theorem witness_MemWriteStoresThenDispatches :
    (0x0100#16 ≤ 0x0100#16 ∧ 0x0100#16 ≤ 0x01FF#16) ∧ (0x0100#16 ≤ 0x01FF#16 ∧ 0x01FF#16 ≤ 0x01FF#16) ∧
    ¬(0x0100#16 ≤ 0x00FF#16 ∧ 0x00FF#16 ≤ 0x01FF#16) ∧ ¬(0x0100#16 ≤ 0x0200#16 ∧ 0x0200#16 ≤ 0x01FF#16) := by decide

theorem witness_OtherWindowStoresArePlain : Memory.wf State.reset.mem = true ∧
    (0x0100#16 ≤ 0x0100#16 ∧ 0x0100#16 ≤ 0x01FF#16 ∧ 0x0100#16 ≠ State.reset.cfg.virtioEntry) ∧
    (0x0100#16 ≤ 0x01FF#16 ∧ 0x01FF#16 ≤ 0x01FF#16 ∧ 0x01FF#16 ≠ State.reset.cfg.virtioEntry) := by decide

/-- No kick, no announcement, the first bad index, an unallocated descriptor, the first unsupported operation. -/
theorem witness_DroppedKicks :
    Memory.wf (ring 2#16 1#16 1#16 0#16).mem = true ∧ (2#16).getLsbD 0 = false ∧
    ((1#16).getLsbD 0 = true ∧ (ring 0#16 1#16 0#16 0#16).rawRead availFlagsAddr = 0#16) ∧
    ((ring 0#16 1#16 1#16 10#16).rawRead availFlagsAddr ≠ 0#16 ∧
      10 ≤ ((ring 0#16 1#16 1#16 10#16).rawRead availIdxAddr).toNat) ∧
    ((ring 0#16 0#16 1#16 0#16).rawRead availFlagsAddr ≠ 0#16 ∧ (ring 0#16 0#16 1#16 0#16).rawRead availIdxAddr = 0#16 ∧
      (ring 0#16 0#16 1#16 0#16).rawRead (descFlagsAddr 0#16) = 0#16) ∧
    Announced (ring 2#16 1#16 1#16 0#16) 1#16 0#16 0x802B#16 2#16 7#16 2#16 := by
  unfold Announced
  decide

/-- A READ of two words at descriptor 0; its last data word is none of the words the device writes otherwise. -/
theorem witness_BlockReadOutcome :
    Announced (ring 0#16 1#16 1#16 0#16) 1#16 0#16 0x802B#16 0x0000#16 7#16 2#16 ∧
    dataAddr 0x802B#16 1 ∉ [usedFlagsAddr, usedIdxAddr, descFlagsAddr 0#16, Config.initial.virtioEntry] ∧
    (∀ k, k < 2 → dataAddr 0x802B#16 k ≠ availFlagsAddr) ∧
    0x8030#16 ∉ [Config.initial.virtioEntry, availFlagsAddr, usedFlagsAddr, usedIdxAddr, descFlagsAddr 0#16] ∧
    (∀ k, k < 2 → 0x8030#16 ≠ dataAddr 0x802B#16 k) := by
  unfold Announced
  decide

/-- A READ at the last descriptor, of no words. -/
theorem witness_BlockReadOutcome_last :
    Announced ((((ring 0#16 0#16 1#16 9#16).rawWrite 0x8029#16 1#16).rawWrite 0x84AC#16 7#16)) 1#16 9#16 0x84AB#16
      0x0000#16 7#16 0#16 := by
  unfold Announced
  decide

theorem witness_BlockWriteOutcome :
    Memory.wf (ring 1#16 1#16 1#16 0#16).mem = true ∧
    Announced (ring 1#16 1#16 1#16 0#16) 1#16 0#16 0x802B#16 0x0001#16 7#16 2#16 := by
  unfold Announced
  decide

/-- A WRITE, and a READ of the same position and length. -/
theorem witness_StorageIsPlaceholder :
    Memory.wf (ring 0#16 1#16 1#16 0#16).mem = true ∧
    Announced (ring 1#16 1#16 1#16 0#16) 1#16 0#16 0x802B#16 0x0001#16 7#16 2#16 ∧
    Announced (ring 0#16 1#16 1#16 0#16) 1#16 0#16 0x802B#16 0x0000#16 7#16 2#16 ∧
    0x802E#16 ∉ [Config.initial.virtioEntry, availFlagsAddr, descFlagsAddr 0#16] := by
  unfold Announced
  decide

/-- OUT, which is neither GETC nor IN nor HALT; GETC and HALT complete too. -/
theorem witness_TrapLinksAndGoesOn :
    (∃ t, exec (.trap 0x21#8) (at3000 0#16) = .next t) ∧ (∃ t, exec (.trap 0x20#8) (at3000 0#16) = .next t) ∧
    (∃ t, exec (.trap 0x25#8) (at3000 0#16) = .next t) := ⟨⟨_, rfl⟩, ⟨_, rfl⟩, ⟨_, rfl⟩⟩

/-- A character waiting, the end of input, and nothing supplied. -/
theorem witness_InputServicesReadR0 :
    nextKey (((at3000 0#16).supply [.quiet, .key 0x41#8]).consoleIn) = some (0x41#8, []) ∧
    (nextKey (at3000 0#16).consoleIn = none ∧ (at3000 0#16).consoleEnded = true) ∧
    (nextKey ({ at3000 0#16 with consoleEnded := false } : State).consoleIn = none ∧
      ({ at3000 0#16 with consoleEnded := false } : State).consoleEnded = false) := by decide

theorem witness_HeldStepWaitsForInput :
    ((at3000 0#16).setHeld (some .inEcho)).run = .running ∧
    ((at3000 0#16).setHeld (some .inEcho)).held = some .inEcho ∧
    nextKey (withKeys ((at3000 0#16).setHeld (some .inEcho)) [0x41#8]).consoleIn = some (0x41#8, []) ∧
    (nextKey ((at3000 0#16).setHeld (some .inEcho)).consoleIn = none ∧
      ((at3000 0#16).setHeld (some .inEcho)).consoleEnded = true) ∧
    ({ (at3000 0#16).setHeld (some .inEcho) with consoleEnded := false } : State).consoleEnded = false := by decide

/-- The vectors next to the service table, and the ends of the range. -/
theorem witness_OutAndUnknownVectorEffect : (0x1F#8).toNat < 0x20 ∧ 0x25 < (0x26#8).toNat ∧ (0x00#8).toNat < 0x20 ∧
    0x25 < (0xFF#8).toNat := by decide

/-- A string of two words, the empty string, and one that wraps from 0xFFFF to 0x0000. -/
theorem witness_PutsEmitsString_PutspEmitsPackedString :
    StringAt (strings 0x0069#16 0x6548#16) 0x4000#16 2 ∧ StringAt (at3000 0#16) 0x4000#16 0 ∧
    StringAt ((at3000 0#16).rawWrite 0xFFFF#16 0x0041#16) 0xFFFF#16 1 := by
  unfold StringAt
  decide

theorem witness_StringServicesStopExactlyOnNoZero : NoZeroWord (filled 65536) ∧ ¬NoZeroWord State.reset :=
  ⟨filled_noZeroWord, fun h => h 0#16 rfl⟩

theorem witness_AbortRecordsFetchedWord : (at3000 0x8FFF#16).run = .running ∧
    after (at3000 0x8FFF#16) (fun t => t.run == .aborted) = true := by decide

/-- The first and the last descriptor; the words just outside the ring's initialised words. -/
theorem witness_ResetState : (0 < 10 ∧ 9 < 10) ∧ 0x8002#16 < 0x8003#16 ∧ 0x802A#16 < 0x802B#16 ∧ 0x802A#16 < 0xFFFF#16 := by
  decide

/-- An image of one word and an odd byte, at the memory ceiling and below it. -/
theorem witness_ImageLoadPlacesWords :
    (Memory.wf State.reset.mem = true ∧ State.reset.held = none) ∧ (State.reset.setHeld (some .getc)).held ≠ none ∧
    [0x12#8, 0x34#8, 0x56#8][2 * 0]? = some 0x12#8 ∧ [0x12#8, 0x34#8, 0x56#8][2 * 0 + 1]? = some 0x34#8 ∧
    ((0xFF#8 ++ 0xFF#8 : Word).toNat + 0 < 65536) ∧
    (0x3001#16).toNat ≥ (0x30#8 ++ 0x00#8 : Word).toNat + [0x12#8, 0x34#8, 0x56#8].length / 2 ∧
    (0x2FFF#16).toNat < (0x30#8 ++ 0x00#8 : Word).toNat := by decide

end Sys2Proof.Tests
end

section
/-! PROOFS. Widening and setcc (spec/00_scope.md R23, R26). -/

namespace Sys2Proof

/-- Widening keeps the signed value (R23). -/
theorem toInt_sext {n : Nat} (v : BitVec n) (h1 : 1 ≤ n) (h2 : n ≤ 16) : (sext n v).toInt = v.toInt := by
  rw [sext_eq_signExtend v h1, BitVec.toInt_signExtend_of_le h2]

/-- The bits of zext_N (R23): a field of at most 16 bits loses none. -/
theorem getLsbD_zext {n : Nat} (v : BitVec n) (h : n ≤ 16) (j : Nat) :
    (zext v).getLsbD j = (decide (j < n) && v.getLsbD j) := by
  rw [zext, BitVec.getLsbD_setWidth]
  by_cases hj : j < n
  · simp [hj, show j < 16 by omega]
  · simp [hj, BitVec.getLsbD_of_ge v j (by omega)]

end Sys2Proof

namespace Sys2Proof.Machine

theorem condOf_zero : condOf 0#16 = condZro := rfl

/-- A value with its sign bit set is not zero, so NEG is what R26 gives. -/
theorem condOf_of_signBit {v : Word} (h : v.getLsbD 15 = true) : condOf v = condNeg := by
  have hv : v ≠ 0#16 := by
    rintro rfl
    simp at h
  rw [condOf, if_neg hv, if_pos h]

theorem condOf_of_positive {v : Word} (hv : v ≠ 0#16) (h : v.getLsbD 15 = false) : condOf v = condPos := by
  rw [condOf, if_neg hv, if_neg (ne_true_of_eq_false h)]

/-- The frame of setcc: every register is among what it keeps. -/
theorem State.setcc_onlyRegsCond (s : State) (v : Word) : OnlyRegsCond [] s (s.setcc v) := by
  refine ⟨fun r _ => s.setcc_reg v r, s.setcc_pc v, fun a _ => s.setcc_rawRead v a, ?control, ?ports⟩
  case control => simp [ControlKept]
  case ports => simp [PortsKept, ConsoleKept]

end Sys2Proof.Machine

namespace Sys2Proof
open Machine

/-- Settles O1: the bits of sext_N and zext_N, and sext_N as the library's sign extension for the signed value. -/
theorem sextWidensZextPads : Obligations.SextWidensZextPads := by
  intro n v h1 h2
  exact ⟨fun _ => getLsbD_sext v h1, rfl, toInt_sext v h1 h2.le, getLsbD_zext v h2.le⟩

/-- Settles O2, from what COND is for each of R26's three cases and the frame of setcc. -/
theorem setccWritesCondBySign : Obligations.SetccWritesCondBySign := by
  intro s v
  refine ⟨?zero, ?negative, ?positive, s.setcc_onlyRegsCond v⟩
  case zero =>
    rintro rfl
    rw [State.setcc_cond, condOf_zero]
  case negative =>
    intro h
    rw [State.setcc_cond, condOf_of_signBit h]
  case positive =>
    intro hv h
    rw [State.setcc_cond, condOf_of_positive hv h]

end Sys2Proof
end

section
/-! PROOFS. The state and its invariants (spec/10_state.md, part 10): what a step comes to for the run state, who writes
COND and who reads it, what a held step does, and the state after reset. -/

namespace Sys2Proof

/-! The decoder's two aborting rows. -/

/-- A word is its opcode field and the twelve bits below it (R111). -/
theorem append_opcode_low (w : Word) : field w 12 4 ++ field w 0 12 = w := by
  apply BitVec.eq_of_getLsbD_eq
  intro j hj
  simp only [field, BitVec.getLsbD_append, BitVec.getLsbD_extractLsb']
  by_cases h : j < 12
  · simp [h]
  · simp [h, show j - 12 < 4 by omega, show 12 + (j - 12) = j by omega]

/-- A word of opcode c is c followed by its low twelve bits. -/
theorem eq_append_of_opcode {w : Word} {c : BitVec 4} (h : (field w 12 4).toNat = c.toNat) : c ++ field w 0 12 = w := by
  rw [← BitVec.eq_of_toNat_eq h, append_opcode_low]

/-- RTI and RES have no ignored bits, so the word that decodes to one is its encoding (R126, R250, R251). -/
theorem encode_of_decode_abort {w : Word} {i : Instr} {low : BitVec 12} (h : decode w = .ok i)
    (hi : i = .rti low ∨ i = .res low) : encode i = w := by
  unfold decode at h
  split at h
  case h_9 hop | h_14 hop =>
    cases h
    exact eq_append_of_opcode hop
  case h_2 | h_5 | h_6 => split at h <;> cases h <;> simp at hi
  all_goals cases h <;> simp at hi

end Sys2Proof

namespace Sys2Proof.Machine

/-! What a step comes to for the run state. -/

/-- What a step that answers a next state comes to, as far as the run state goes (R43). -/
inductive StepOutcome (s t : State) : Prop where
  /-- the run had ended; nothing is done -/
  | ended (hrun : s.run ≠ .running) (same : t = s)
  /-- the run goes on -/
  | ran (hrun : s.run = .running) (frame : RunFrame s t)
  /-- TRAP HALT -/
  | halted (hrun : s.run = .running) (hheld : s.held = none) (hdec : decode s.fetch.1 = .ok (.trap 0x25#8))
      (eq : t = (s.fetch.2.link.emit s.fetch.2.cfg.haltMessage).halt)
  /-- RTI or RES, which record the word fetched -/
  | aborted (hrun : s.run = .running) (hheld : s.held = none) (low : BitVec 12)
      (hdec : decode s.fetch.1 = .ok (.rti low) ∨ decode s.fetch.1 = .ok (.res low))
      (reason : AbortReason) (eq : t = s.fetch.2.raiseAbort reason s.fetch.1)

theorem step_outcome {s t : State} (h : step s = .next t) : StepOutcome s t := by
  rcases step_cases s t h with ⟨hrun, rfl⟩ | ⟨svc, hrun, -, rfl⟩ | ⟨i, hrun, hheld, hdec, hexec⟩ |
    ⟨e, hrun, -, -, rfl⟩
  · exact .ended hrun rfl
  · exact .ran hrun (s.inputService_runFrame svc)
  · rcases exec_cases i _ t hexec with frame | ⟨rfl, eq⟩ | ⟨low, rfl, eq⟩ | ⟨low, rfl, eq⟩
    · exact .ran hrun (s.fetch_runFrame.trans frame)
    · exact .halted hrun hheld hdec eq
    · have hword : 0x8#4 ++ low = s.fetch.1 := encode_of_decode_abort hdec (.inl rfl)
      exact .aborted hrun hheld low (.inl hdec) .abortRti (hword ▸ eq)
    · have hword : 0xD#4 ++ low = s.fetch.1 := encode_of_decode_abort hdec (.inr rfl)
      exact .aborted hrun hheld low (.inr hdec) .abortRes (hword ▸ eq)
  · exact .ran hrun (s.fetch_runFrame.trans (State.report_frame ..).runFrame)

/-- HALTED and ABORTED have no transition: the step answers the same state (R43; log entry 12). -/
theorem step_of_ended {s : State} (h : s.run = .halted ∨ s.run = .aborted) : step s = .next s := by
  unfold step
  rcases h with h | h <;> rw [h]

/-- Of a run that is not aborted, the record is exact when there is none (R45). -/
theorem abortRecorded_iff_none {s : State} (hrun : s.run ≠ .aborted) : AbortRecorded s ↔ s.abortInfo = none := by
  simp [AbortRecorded, hrun]

/-! What every step keeps, HALT, RTI and RES among them. -/

/-- What every step keeps: the parameters and the memory's form; console input is used from its front, output and log
only grow. -/
structure StepFrame (s t : State) : Prop where
  cfg : t.cfg = s.cfg
  wf : Memory.wf s.mem = true → Memory.wf t.mem = true
  consoleIn : t.consoleIn <:+ s.consoleIn
  consoleEnded : t.consoleEnded = s.consoleEnded
  consoleOut : s.consoleOut <+: t.consoleOut
  log : s.log <+: t.log

theorem RunFrame.stepFrame {s t : State} (h : RunFrame s t) : StepFrame s t :=
  ⟨h.cfg, h.wf, h.consoleIn, h.consoleEnded, h.consoleOut, h.log⟩

theorem StepFrame.trans {s t u : State} (h : StepFrame s t) (k : StepFrame t u) : StepFrame s u :=
  ⟨k.cfg.trans h.cfg, fun w => k.wf (h.wf w), k.consoleIn.trans h.consoleIn, k.consoleEnded.trans h.consoleEnded,
    h.consoleOut.trans k.consoleOut, h.log.trans k.log⟩

theorem State.halt_stepFrame (s : State) : StepFrame s s.halt :=
  ⟨rfl, id, List.suffix_refl _, rfl, List.prefix_refl _, List.prefix_refl _⟩

theorem State.raiseAbort_stepFrame (s : State) (reason : AbortReason) (w : Word) : StepFrame s (s.raiseAbort reason w) :=
  ⟨rfl, id, List.suffix_refl _, rfl, List.prefix_refl _, List.prefix_refl _⟩

theorem step_frame {s t : State} (h : step s = .next t) : StepFrame s t := by
  cases step_outcome h with
  | ended _ same => exact same ▸ (RunFrame.refl s).stepFrame
  | ran _ frame => exact frame.stepFrame
  | halted _ _ _ eq =>
    have hframe := (s.fetch_runFrame.trans (State.link_runFrame _)).trans
      (State.emit_runFrame _ s.fetch.2.cfg.haltMessage)
    exact eq ▸ hframe.stepFrame.trans (State.halt_stepFrame _)
  | aborted _ _ _ _ _ eq => exact eq ▸ s.fetch_runFrame.stepFrame.trans (State.raiseAbort_stepFrame ..)

/-! Who writes COND (R38). -/

/-- A register load sets COND from its destination. -/
theorem State.loadReg_cond (s : State) (dr : Reg) (ea : Word) :
    (s.loadReg dr ea).cond = condOf ((s.loadReg dr ea).reg dr) := by
  obtain ⟨hreg, hcond, -⟩ := s.loadReg_loaded dr ea
  rw [hcond, hreg]

theorem State.setRegCc_cond_eq (s : State) (dr : Reg) (v : Word) :
    (s.setRegCc dr v).cond = condOf ((s.setRegCc dr v).reg dr) := by simp

/-- What a service may do to COND: keep it, or set it from R0 where TRAP_IN_SETS_FLAGS is set (R230). -/
def CondKeptOrFromR0 (s t : State) : Prop :=
  t.cond = s.cond ∨ s.cfg.trapInSetsFlags = true ∧ t.cond = condOf (t.reg .r0)

theorem State.receive_cond (s : State) (svc : InputService) (v : Word) : CondKeptOrFromR0 s (s.receive svc v) := by
  obtain ⟨hreg, -, -, -, -, hcond, -⟩ := s.receive_fields svc v
  unfold CondKeptOrFromR0
  rw [hreg, hcond]
  split
  · exact .inr ⟨‹_›, rfl⟩
  · exact .inl rfl

/-- GETC and IN set COND when the read completes, and keep it when the step is held. -/
theorem State.inputService_cond (s : State) (svc : InputService) : CondKeptOrFromR0 s (s.inputService svc) := by
  rcases s.inputService_cases svc with ⟨c, rest, -, e⟩ | ⟨-, -, e⟩ | ⟨-, -, e⟩ <;> rw [e]
  · exact State.receive_cond (({ s with consoleIn := rest } : State).setHeld none) svc (zext c)
  · exact (s.setHeld none).receive_cond svc eofValue
  · exact .inl rfl

/-- PUTS and PUTSP, where they complete, only emit characters (R224, R227). -/
theorem stringService_next {f : State → Result} (hf : f = State.servicePuts ∨ f = State.servicePutsp) {s t : State}
    (h : f s = .next t) : ∃ cs, t = s.emit cs := by
  rcases hf with rfl | rfl
  all_goals
    simp only [State.servicePuts, State.servicePutsp] at h
    split at h <;> cases h
    exact ⟨_, rfl⟩

/-- Among the services only GETC and IN may change COND (R38, R230). -/
theorem execTrap_cond {v : Byte} {s t : State} (h : execTrap v s = .next t) :
    t.cond = s.cond ∨ (v = 0x20#8 ∨ v = 0x23#8) ∧ s.cfg.trapInSetsFlags = true ∧ t.cond = condOf (t.reg .r0) := by
  unfold execTrap at h
  rcases s.link.service_cases v with ⟨hv, e⟩ | ⟨-, e⟩ | ⟨-, e⟩ | ⟨hv, e⟩ | ⟨-, e⟩ | ⟨-, e⟩ | ⟨-, e⟩ <;> rw [e] at h
  · cases h
    exact (s.link.inputService_cond .getc).imp_right fun hset => ⟨.inl hv, hset⟩
  · cases h
    exact .inl rfl
  · obtain ⟨cs, rfl⟩ := stringService_next (.inl rfl) h
    exact .inl rfl
  · cases h
    exact (State.inputService_cond (s.link.emit s.link.cfg.inPrompt) .inEcho).imp_right fun hset => ⟨.inr hv, hset⟩
  · obtain ⟨cs, rfl⟩ := stringService_next (.inr rfl) h
    exact .inl rfl
  · cases h
    exact .inl rfl
  · cases h
    exact .inl rfl

end Sys2Proof.Machine

namespace Sys2Proof
open Machine

/-- Settles O11, from what a step comes to: RUN leaves RUNNING in the outcomes of HALT, RTI and RES alone. -/
theorem runStateChanges : Obligations.RunStateChanges := by
  refine ⟨rfl, fun s => step_of_ended, fun s t hrun h => ?_⟩
  cases step_outcome h with
  | ended hended => exact absurd hrun hended
  | ran _ frame => simp [frame.run, hrun]
  | halted _ hheld hdec eq => simp [eq, hheld, hdec]
  | aborted _ hheld low hdec _ eq =>
    exact ⟨fun hhalt => by simp [eq] at hhalt, fun _ => ⟨hheld, low, hdec⟩⟩

/-- Settles O14, by the outcomes of a step: only an abort writes the record, and only a running machine leaves a
hold. -/
theorem stepKeepsAbortRecord : Obligations.StepKeepsAbortRecord := by
  intro s t hrec hhold h
  have hkept (hrun : s.run = .running) (info : AbortInfo) (hinfo : s.abortInfo = some info) :
      t.abortInfo = some info := by
    simp [(abortRecorded_iff_none (by simp [hrun])).1 hrec] at hinfo
  cases step_outcome h with
  | ended _ same =>
    subst same
    exact ⟨hrec, hhold, fun _ => id⟩
  | ran hrun frame =>
    refine ⟨?_, fun _ => frame.run.trans hrun, hkept hrun⟩
    rw [AbortRecorded, frame.abortInfo, frame.run]
    exact hrec
  | halted hrun hheld _ eq =>
    have hnone : t.abortInfo = none := by
      simp [eq, s.fetch_runFrame.abortInfo, (abortRecorded_iff_none (by simp [hrun])).1 hrec]
    refine ⟨(abortRecorded_iff_none (by simp [eq])).2 hnone, ?_, hkept hrun⟩
    simp [HeldWhileRunning, eq, s.fetch_held, hheld]
  | aborted hrun hheld _ _ _ eq =>
    refine ⟨by simp [AbortRecorded, eq], ?_, hkept hrun⟩
    simp [HeldWhileRunning, eq, s.fetch_held, hheld]

/-- Settles O16, by the instruction: a flag-defining one ends in setRegCc or a register load, a store or a read keeps
COND by its frame, and TRAP by its services. -/
theorem onlyListedInstructionsWriteCond : Obligations.OnlyListedInstructionsWriteCond := by
  intro i s t h
  cases i with
  | trap v => exact execTrap_cond h
  | add | addi | and | andi | not | lea =>
    cases h
    exact State.setRegCc_cond_eq ..
  | ld | ldr | ldi =>
    cases h
    exact State.loadReg_cond ..
  | st | str =>
    cases h
    exact (State.memWrite_frame ..).cond
  | sti sr off =>
    cases h
    exact (State.memWrite_frame ..).cond.trans (s.memRead_frame (s.pcRel off)).cond
  | br =>
    cases h
    dsimp only
    split
    · exact s.setPc_cond _
    · rfl
  | jmp | jsr | jsrr | rti | res =>
    cases h
    rfl

end Sys2Proof

namespace Sys2Proof.Machine

/-- An instruction keeps COND or sets it from a value (R38). -/
theorem exec_cond {i : Instr} {s t : State} (h : exec i s = .next t) : t.cond = s.cond ∨ ∃ v, t.cond = condOf v := by
  have hlist := onlyListedInstructionsWriteCond i s t h
  cases i with
  | trap => exact hlist.imp_right fun ⟨_, _, hset⟩ => ⟨_, hset⟩
  | add | addi | and | andi | not | lea | ld | ldr | ldi => exact .inr ⟨_, hlist⟩
  | st | str | sti | br | jmp | jsr | jsrr | rti | res => exact .inl hlist

/-- A step keeps COND or sets it from a value: no step writes it otherwise. -/
theorem step_cond {s t : State} (h : step s = .next t) : t.cond = s.cond ∨ ∃ v, t.cond = condOf v := by
  rcases step_cases s t h with ⟨-, rfl⟩ | ⟨svc, -, -, rfl⟩ | ⟨i, -, -, -, hexec⟩ | ⟨e, -, -, -, rfl⟩
  · exact .inl rfl
  · exact (s.inputService_cond svc).imp_right fun ⟨_, hset⟩ => ⟨_, hset⟩
  · exact s.fetch_cond ▸ exec_cond hexec
  · exact .inl s.fetch_cond

end Sys2Proof.Machine

namespace Sys2Proof
open Machine

/-- Settles O12: a step keeps COND or sets it by condOf, whose values are the legal ones. -/
theorem stepKeepsCondLegal : Obligations.StepKeepsCondLegal := by
  intro s t hlegal h
  rcases step_cond h with hkept | ⟨v, hset⟩
  · exact hkept ▸ hlegal
  · exact hset ▸ condLegal_condOf v

/-- Settles O18, from what every step keeps. -/
theorem stepKeepsParameters : Obligations.StepKeepsParameters := fun _ _ h => (step_frame h).cfg

/-- Settles O19, from what every step keeps. -/
theorem stepUsesPortsInOrder : Obligations.StepUsesPortsInOrder := fun _ _ h =>
  have hframe := step_frame h
  ⟨hframe.consoleIn, hframe.consoleEnded, hframe.consoleOut, hframe.log⟩

/-- Settles O56: of a running machine's outcomes only the abort leaves it aborted, and its record's address is the
incremented PC less one. -/
theorem abortRecordsFetchedWord : Obligations.AbortRecordsFetchedWord := by
  intro s t hrun h habort
  cases step_outcome h with
  | ended hended => exact absurd hrun hended
  | ran _ frame => simp [frame.run, hrun] at habort
  | halted _ _ _ eq => simp [eq] at habort
  | aborted _ _ _ _ reason eq =>
    refine ⟨reason, ?_⟩
    rw [eq, State.raiseAbort_abortInfo, s.fetch_pc, BitVec.add_sub_cancel]

end Sys2Proof

namespace Sys2Proof.Machine

/-! Who reads COND (R39). -/

/-- An instruction's answer with COND replaced in the next state, where there is one. -/
def withCond (c : Word) : Result → Result
  | .next t => .next (t.setCond c)
  | .fault f => .fault f
  | .refused r => .refused r

/-- The meaning f does not read COND: with COND changed before it, its answer is the same, or the same
but for COND. -/
def CondBlind (f : State → Result) (s : State) (c : Word) : Prop :=
  f (s.setCond c) = f s ∨ f (s.setCond c) = withCond c (f s)

theorem CondBlind.next {f : State → Result} {s t : State} {c : Word} (h : CondBlind f s c) (ht : f s = .next t) :
    f (s.setCond c) = .next t ∨ f (s.setCond c) = .next (t.setCond c) := by
  rw [CondBlind, ht] at h
  exact h

theorem CondBlind.fault {f : State → Result} {s : State} {c : Word} {e : Fault} (h : CondBlind f s c)
    (he : f s = .fault e) : f (s.setCond c) = .fault e := by
  rw [CondBlind, he] at h
  exact h.elim id id

/-- A next state that carries a changed COND along. -/
theorem condBlind_of_setCond (g : State → State) {s : State} {c : Word} (h : g (s.setCond c) = (g s).setCond c) :
    CondBlind (fun u => .next (g u)) s c := .inr (by simp only [h, withCond])

/-- A next state that does not depend on COND at all. -/
theorem condBlind_of_eq (g : State → State) {s : State} {c : Word} (h : g (s.setCond c) = g s) :
    CondBlind (fun u => .next (g u)) s c := .inl (by simp only [h])

theorem State.indirect_setCond (s : State) (c off : Word) :
    (s.setCond c).indirect off = ((s.indirect off).1, (s.indirect off).2.setCond c) := s.memRead_setCond c (s.pcRel off)

theorem condBlind_inputService (s : State) (c : Word) (svc : InputService) :
    CondBlind (fun u => .next (u.inputService svc)) s c :=
  (s.inputService_setCond c svc).elim (condBlind_of_eq fun u => u.inputService svc)
    (condBlind_of_setCond fun u => u.inputService svc)

/-- The string walk reads memory and R0 alone. -/
theorem State.string_setCond (s : State) (c : Word) : (s.setCond c).string = s.string := rfl

theorem condBlind_servicePuts (s : State) (c : Word) : CondBlind State.servicePuts s c := by
  unfold CondBlind State.servicePuts
  rw [State.string_setCond]
  cases s.string <;> exact .inr rfl

theorem condBlind_servicePutsp (s : State) (c : Word) : CondBlind State.servicePutsp s c := by
  unfold CondBlind State.servicePutsp
  rw [State.string_setCond]
  cases s.string <;> exact .inr rfl

/-- No service reads COND. -/
theorem condBlind_service (s : State) (c : Word) (v : Byte) : CondBlind (fun u => u.service v) s c := by
  unfold CondBlind State.service
  dsimp only
  split
  · exact condBlind_inputService s c .getc
  · exact .inr rfl
  · exact condBlind_servicePuts s c
  · exact condBlind_inputService (s.emit s.cfg.inPrompt) c .inEcho
  · exact condBlind_servicePutsp s c
  · exact .inr rfl
  · exact .inr rfl

/-- No instruction but BR reads COND (R39). -/
theorem condBlind_exec (i : Instr) (s : State) (c : Word) (hbr : ∀ n z p off, i ≠ .br n z p off) :
    CondBlind (exec i) s c := by
  cases i with
  | br n z p off => exact absurd rfl (hbr n z p off)
  | trap v => exact condBlind_service s.link c v
  | add | addi | and | andi | not | lea => exact .inl rfl
  | ld | ldr => exact condBlind_of_eq _ (s.loadReg_setCond ..)
  | ldi dr off =>
    refine condBlind_of_eq (fun u => (u.indirect off).2.loadReg dr (u.indirect off).1) ?_
    simp only [State.indirect_setCond, State.loadReg_setCond]
  | st | str => exact condBlind_of_setCond _ (s.memWrite_setCond ..)
  | sti sr off =>
    refine condBlind_of_setCond (fun u => (u.indirect off).2.memWrite (u.indirect off).1 (u.reg sr)) ?_
    simp only [State.indirect_setCond, State.memWrite_setCond, State.setCond_reg]
  | jmp | jsr | jsrr | rti | res => exact .inr rfl

theorem State.fetch_setCond (s : State) (c : Word) : (s.setCond c).fetch = (s.fetch.1, s.fetch.2.setCond c) := by
  simp only [State.fetch, State.setCond_pc, State.memRead_setCond]
  rfl

/-! The host's accesses. -/

/-- Between steps the host's access carries a changed COND along: the hold, which decides whether it is answered, is
not COND. -/
theorem State.between_setCond (s u : State) (c : Word) :
    (s.setCond c).between (u.setCond c) = (s.between u).map (fun t => t.setCond c) := by
  by_cases hheld : s.held = none
  · rw [State.between_of_not_held hheld, State.between_of_not_held (s := s.setCond c) hheld, Option.map_some]
  · rw [State.between_of_held hheld, State.between_of_held (s := s.setCond c) hheld, Option.map_none]

theorem State.hostWrite_setCond (s : State) (c a v : Word) :
    (s.setCond c).hostWrite a v = (s.hostWrite a v).map (fun t => t.setCond c) :=
  s.between_setCond (s.rawWrite a v) c

theorem State.hostMemWrite_setCond (s : State) (c a v : Word) :
    (s.setCond c).hostMemWrite a v = (s.hostMemWrite a v).map (fun t => t.setCond c) := by
  rw [State.hostMemWrite, State.memWrite_setCond]
  exact s.between_setCond (s.memWrite a v) c

theorem State.externalStop_setCond (s : State) (c : Word) :
    (s.setCond c).externalStop = s.externalStop.map (fun q => (q.1.setCond c, q.2)) := by
  simp only [State.externalStop, State.setCond_run]
  cases s.run <;> rfl

theorem State.loadWords_setCond (s : State) (c : Word) (a : Nat) (ws : List Word) :
    (s.setCond c).loadWords a ws = (s.loadWords a ws).setCond c := by
  induction ws generalizing s a with
  | nil => rfl
  | cons w ws ih =>
    simp only [State.loadWords]
    split
    · rfl
    · exact ih (s.rawWrite (BitVec.ofNat 16 a) w) (a + 1)

theorem State.loadImage_setCond (s : State) (c : Word) (image : List Byte) :
    (s.setCond c).loadImage image = (s.loadImage image).map (fun t => t.setCond c) := by
  match image with
  | [] | [_] => rfl
  | hi :: lo :: rest =>
    simp only [State.loadImage, State.loadWords_setCond]
    exact s.between_setCond _ c

/-! The held step (R49, R305). -/

theorem step_of_held {s : State} {svc : InputService} (hrun : s.run = .running) (hheld : s.held = some svc) :
    step s = .next (s.inputService svc) := by
  unfold step
  rw [hrun, hheld]

/-- With nothing supplied a held service is held on, in the same state. -/
theorem State.inputService_waits {s : State} {svc : InputService} (hheld : s.held = some svc)
    (hkey : nextKey s.consoleIn = none) (hopen : s.consoleEnded = false) : s.inputService svc = s := by
  have hsame : s.setHeld (some svc) = s := by rw [← hheld]; rfl
  simp only [State.inputService, State.consoleGet, hkey, hopen, Bool.false_eq_true, if_false, hsame]

/-- The state in which a completed read is received: the hold is over and rest is left of the input. -/
def State.readDone (s : State) (rest : List ConsoleEvent) : State := { s with consoleIn := rest, held := none }

/-- With x to read, the next character or the end of input, and rest left of the input, the service completes. -/
theorem State.inputService_completes {s : State} {x : Word} {rest : List ConsoleEvent} (svc : InputService)
    (h : (∃ c, nextKey s.consoleIn = some (c, rest) ∧ x = zext c) ∨
      (nextKey s.consoleIn = none ∧ s.consoleEnded = true ∧ x = 0xFFFF#16 ∧ rest = s.consoleIn)) :
    s.inputService svc = (s.readDone rest).receive svc x := by
  rcases h with ⟨c, hkey, rfl⟩ | ⟨hkey, hended, rfl, rfl⟩
  · simp only [State.inputService, State.consoleGet, hkey]
    rfl
  · have hget : s.consoleGet = (some eofValue, s) := by rw [State.consoleGet, hkey, hended]; rfl
    rw [State.inputService, hget]
    rfl

end Sys2Proof.Machine

namespace Sys2Proof
open Machine

/-- Settles O17: instructions by CondBlind, and the fetch, the held services and the host's accesses by the lemma that
carries a changed COND through each. -/
theorem onlyBrReadsCond : Obligations.OnlyBrReadsCond := by
  refine ⟨fun i s c hbr => ?instr, State.fetch_setCond, State.inputService_setCond, fun s c a v => ?host,
    fun s c events => ⟨rfl, rfl⟩, State.loadImage_setCond⟩
  case instr =>
    have hblind := condBlind_exec i s c hbr
    exact ⟨fun t => hblind.next, fun f => hblind.fault⟩
  case host => exact ⟨rfl, s.hostWrite_setCond c a v, s.hostMemWrite_setCond c a v, rfl, s.externalStop_setCond c⟩

/-- Settles O48: a held step is its input service again, which waits or completes; and the hold closes the host's
port. -/
theorem heldStepWaitsForInput : Obligations.HeldStepWaitsForInput := by
  intro s svc hrun hheld
  have hstep := step_of_held hrun hheld
  refine ⟨fun hkey hopen => ?waits, fun x rest hinput => ?completes, fun a v => ?host⟩
  case waits => rw [hstep, State.inputService_waits hheld hkey hopen]
  case completes =>
    rw [State.inputService_completes svc hinput] at hstep
    have hframe := (s.readDone rest).receive_runFrame svc x
    obtain ⟨hr0, hregs, hpc, hmem, hheld', hcond, hin, hlog, hout⟩ := (s.readDone rest).receive_fields svc x
    refine ⟨_, hstep, hheld', hr0, fun r hr => hregs r (by simpa using hr), hpc, hcond, fun a _ => ?_, hframe.run,
      hframe.abortInfo, hframe.cfg, hin, hframe.consoleEnded, hlog, hout⟩
    exact congrArg (Memory.get · a.toNat) hmem
  case host =>
    have hne : s.held ≠ none := by simp [hheld]
    exact ⟨State.between_of_held hne _, State.between_of_held hne _, State.between_of_held hne _⟩

/-! Reset. -/

theorem reset_rawRead (a : Word) : State.reset.rawRead a = resetWord a.toNat := rfl

/-- A word outside the ring's descriptors resets to zero (R47, R280). -/
theorem resetWord_of_not_descriptor {a : Nat} (h : a < 0x8003 ∨ 0x802A < a) : resetWord a = 0#16 := by
  unfold resetWord nDesc
  exact if_neg (by omega)

/-- Word k of descriptor i after reset: ADDR, LEN, FLAGS, NEXT (R279, R280). -/
def descriptorWord (i : Nat) : Nat → Word
  | 0 => dataBase + descCap * BitVec.ofNat 16 i
  | 1 => descCap
  | 2 => 0#16
  | _ => if i < 9 then BitVec.ofNat 16 (i + 1) else 0#16

theorem resetWord_descriptor {i k : Nat} (hi : i < 10) (hk : k < 4) :
    resetWord (0x8003 + (4 * i + k)) = descriptorWord i k := by
  have hdiv : (4 * i + k) / 4 = i := by omega
  have hmod : (4 * i + k) % 4 = k := by omega
  unfold resetWord nDesc
  rw [if_pos (by omega)]
  simp only [Nat.add_sub_cancel_left, hdiv, hmod]
  rfl

/-- Reading word k of the descriptors at stride 4: no address wraps. -/
theorem reset_rawRead_descriptor {i k : Nat} {base : Word} (hi : i < 10) (hk : k < 4) (hbase : base.toNat = 0x8003 + k) :
    State.reset.rawRead (base + 4#16 * BitVec.ofNat 16 i) = descriptorWord i k := by
  have haddr : (base + 4#16 * BitVec.ofNat 16 i).toNat = 0x8003 + (4 * i + k) := by
    simp only [BitVec.toNat_add, BitVec.toNat_mul, BitVec.toNat_ofNat, hbase]
    omega
  rw [reset_rawRead, haddr, resetWord_descriptor hi hk]

/-- Settles O15: reset memory is the empty list, COND is POS, and there is neither a record nor a hold. -/
theorem resetMeetsInvariants : Obligations.ResetMeetsInvariants :=
  ⟨State.reset_wf, .inl rfl, (abortRecorded_iff_none (by decide)).2 rfl, fun hheld => absurd rfl hheld⟩

/-- Settles O57, register by register. -/
theorem registersResetToZero : Obligations.RegistersResetToZero := by
  intro r
  cases r <;> rfl

/-- Settles O58: the fields by definition, the ring's words by computation, and every other word by its address. -/
theorem resetState : Obligations.ResetState := by
  refine ⟨rfl, rfl, rfl, rfl, fun i hi => ⟨?addr, ?len, ?flags, ?next⟩, fun a ha => ?other⟩
  case addr => exact reset_rawRead_descriptor (k := 0) hi (by decide) rfl
  case len => exact reset_rawRead_descriptor (k := 1) hi (by decide) rfl
  case flags => exact reset_rawRead_descriptor (k := 2) hi (by decide) rfl
  case next => exact reset_rawRead_descriptor (k := 3) hi (by decide) rfl
  case other =>
    rw [reset_rawRead]
    exact resetWord_of_not_descriptor (by simpa [BitVec.lt_def] using ha)

end Sys2Proof
end

section
/-! PROOFS. Memory and its accessors (spec/20_memory.md): the form every step keeps, the one way a step has no next
state, the keyboard poll of MemRead, and MemWrite's dispatch window. -/

namespace Sys2Proof.Machine

/-! What a step can come to. -/

/-- A step answers a next state outright, or its answer is that of the instruction fetched. -/
theorem step_next_or_exec (s : State) : (∃ t, step s = .next t) ∨
    ∃ i, s.run = .running ∧ s.held = none ∧ decode s.fetch.1 = .ok i ∧ step s = exec i s.fetch.2 := by
  unfold step
  split
  · split
    · exact .inr ⟨_, ‹_›, ‹_›, ‹_›, rfl⟩
    · exact .inl ⟨_, rfl⟩
  all_goals exact .inl ⟨_, rfl⟩

/-! The keyboard poll of MemRead (R78 to R80). -/

/-- The console has no character for a poll made now. -/
def NothingWaits (s : State) : Prop := s.consoleIn = [] ∨ ∃ rest, s.consoleIn = .quiet :: rest

/-- The state past the next console event, a character or a poll that finds none (R48). -/
def State.pastEvent (s : State) : State := { s with consoleIn := s.consoleIn.tail }

theorem kbsrAddr_ne_kbdrAddr : kbsrAddr ≠ kbdrAddr := by decide

theorem State.consolePoll_key {s : State} {c : Byte} {rest : List ConsoleEvent} (h : s.consoleIn = .key c :: rest) :
    s.consolePoll = (some c, s.pastEvent) := by
  rw [State.consolePoll, State.pastEvent, h, List.tail_cons]

theorem State.consolePoll_nothing {s : State} (h : NothingWaits s) : s.consolePoll = (none, s.pastEvent) := by
  rcases h with h | ⟨rest, h⟩
  · have hsame : s.pastEvent = s := by rw [State.pastEvent, h, List.tail_nil, ← h]
    rw [hsame, State.consolePoll, h]
  · rw [State.consolePoll, State.pastEvent, h, List.tail_cons]

theorem State.pollKeyboard_key {s : State} {c : Byte} {rest : List ConsoleEvent} (h : s.consoleIn = .key c :: rest) :
    s.pollKeyboard =
      (s.pastEvent.rawWrite kbsrAddr (s.rawRead kbsrAddr ||| 0x8000#16)).rawWrite kbdrAddr (zext c) := by
  rw [State.pollKeyboard, State.consolePoll_key h]
  rfl

/-- An empty poll clears KBDR, and KBSR too where KBSR_CLEAR_ON_EMPTY is set (R80). -/
theorem State.pollKeyboard_nothing {s : State} (h : NothingWaits s) :
    s.pollKeyboard = if s.cfg.kbsrClearOnEmpty then (s.pastEvent.rawWrite kbdrAddr 0#16).rawWrite kbsrAddr 0#16
      else s.pastEvent.rawWrite kbdrAddr 0#16 := by
  rw [State.pollKeyboard, State.consolePoll_nothing h]
  rfl

/-- A poll uses up one console event, whatever it finds. -/
theorem State.pollKeyboard_consoleIn (s : State) : s.pollKeyboard.consoleIn = s.consoleIn.tail := by
  match h : s.consoleIn with
  | .key c :: rest => rw [State.pollKeyboard_key h, ← h]; rfl
  | [] => rw [State.pollKeyboard_nothing (.inl h), ← h]; split <;> rfl
  | .quiet :: rest => rw [State.pollKeyboard_nothing (.inr ⟨rest, h⟩), ← h]; split <;> rfl

/-- KBSR and KBDR after a poll that finds a character (R79). -/
theorem State.pollKeyboard_key_reads {s : State} {c : Byte} {rest : List ConsoleEvent} (hw : Memory.wf s.mem = true)
    (h : s.consoleIn = .key c :: rest) :
    s.pollKeyboard.rawRead kbsrAddr = s.rawRead kbsrAddr ||| 0x8000#16 ∧
    s.pollKeyboard.rawRead kbdrAddr = zext c := by
  rw [State.pollKeyboard_key h]
  refine ⟨?kbsr, State.rawRead_rawWrite_same _ _ _ (s.pastEvent.rawWrite_wf _ _ hw)⟩
  case kbsr =>
    rw [State.rawRead_rawWrite_other _ _ kbsrAddr_ne_kbdrAddr]
    exact s.pastEvent.rawRead_rawWrite_same _ _ hw

/-- KBSR and KBDR after a poll that finds nothing (R80). -/
theorem State.pollKeyboard_nothing_reads {s : State} (hw : Memory.wf s.mem = true) (h : NothingWaits s) :
    s.pollKeyboard.rawRead kbdrAddr = 0#16 ∧
    (s.cfg.kbsrClearOnEmpty = false → s.pollKeyboard.rawRead kbsrAddr = s.rawRead kbsrAddr) ∧
    (s.cfg.kbsrClearOnEmpty = true → s.pollKeyboard.rawRead kbsrAddr = 0#16) := by
  rw [State.pollKeyboard_nothing h]
  have hkbdr : (s.pastEvent.rawWrite kbdrAddr 0#16).rawRead kbdrAddr = 0#16 :=
    s.pastEvent.rawRead_rawWrite_same _ _ hw
  cases hclear : s.cfg.kbsrClearOnEmpty with
  | false => exact ⟨hkbdr, fun _ => s.pastEvent.rawRead_rawWrite_other _ kbsrAddr_ne_kbdrAddr, nofun⟩
  | true =>
    refine ⟨?kbdr, nofun, fun _ => State.rawRead_rawWrite_same _ _ _ (s.pastEvent.rawWrite_wf _ _ hw)⟩
    case kbdr => exact (State.rawRead_rawWrite_other _ _ kbsrAddr_ne_kbdrAddr.symm).trans hkbdr

theorem State.memRead_kbsrAddr (s : State) :
    s.memRead kbsrAddr = (s.pollKeyboard.rawRead kbsrAddr, s.pollKeyboard) := by
  rw [State.memRead, State.afterRead, if_pos rfl]

/-! The interrupt-vector window of MemWrite (R83). -/

/-- The window is 0x0100..0x01FF (R12). -/
theorem inIvt_iff (a : Word) : inIvt a = true ↔ 0x0100#16 ≤ a ∧ a ≤ 0x01FF#16 := by
  rw [inIvt, Bool.and_eq_true, decide_eq_true_eq, decide_eq_true_eq]
  exact Iff.rfl

theorem State.memWrite_inside (s : State) {a : Word} (v : Word) (h : 0x0100#16 ≤ a ∧ a ≤ 0x01FF#16) :
    s.memWrite a v = (s.rawWrite a v).dispatch a := if_pos ((inIvt_iff a).2 h)

theorem State.memWrite_outside (s : State) {a : Word} (v : Word) (h : ¬(0x0100#16 ≤ a ∧ a ≤ 0x01FF#16)) :
    s.memWrite a v = s.rawWrite a v := if_neg (mt (inIvt_iff a).1 h)

end Sys2Proof.Machine

namespace Sys2Proof
open Machine

/-- Settles O13, from what every step keeps. -/
theorem stepKeepsMemoryForm : Obligations.StepKeepsMemoryForm := fun _ _ hw h => (step_frame h).wf hw

/-- Settles O20: a step without a next state of its own has its instruction's answer, and an instruction stops only
where the string walk finds no zero word. -/
theorem onlyUnendingStringsStop : Obligations.OnlyUnendingStringsStop := by
  intro s
  rcases step_next_or_exec s with hnext | ⟨i, hrun, hheld, hdec, hstep⟩
  · exact .inl hnext
  rw [hstep]
  rcases exec_stops i s.fetch.2 with hnext | ⟨hfault, hi, hstring⟩
  · exact .inl hnext
  have hzero : NoZeroWord s.fetch.2 := (State.string_none s.fetch.2.link).1 hstring
  refine .inr ⟨hfault, hrun, hheld, hzero, ?_⟩
  rcases hi with rfl | rfl
  · exact .inl hdec
  · exact .inr hdec

/-- Settles O38: away from KBSR_ADDR there is no side effect, and there the poll's frame and the words it leaves, by
what the console has waiting. -/
theorem memReadPollsKeyboard : Obligations.MemReadPollsKeyboard := by
  intro s a hw
  refine ⟨fun h => s.memRead_plain h, ?_⟩
  rintro rfl
  rw [State.memRead_kbsrAddr]
  have hframe := s.pollKeyboard_frame
  have htail := s.pollKeyboard_consoleIn
  refine ⟨rfl, hframe.mem, fun r _ => hframe.reg r, hframe.pc, hframe.cond,
    ⟨hframe.run, hframe.abortInfo, hframe.held, hframe.cfg⟩, hframe.consoleEnded, hframe.consoleOut, hframe.log,
    fun c rest h => ?key, fun h => ?empty, fun rest h => ?quiet, State.pollKeyboard_nothing_reads hw⟩
  case key =>
    obtain ⟨hkbsr, hkbdr⟩ := State.pollKeyboard_key_reads hw h
    exact ⟨hkbsr, hkbdr, by rw [htail, h, List.tail_cons]⟩
  case empty => rw [htail, h, List.tail_nil]
  case quiet => rw [htail, h, List.tail_cons]

/-- Settles O39: inside the window MemWrite is the store and the dispatch; outside it is the store, whose frame is that
of a raw write. -/
theorem memWriteStoresThenDispatches : Obligations.MemWriteStoresThenDispatches := by
  intro s a v hw
  have hsame := s.rawRead_rawWrite_same a v hw
  refine ⟨hsame, s.memWrite_inside v, fun h => ⟨s.memWrite_stored a v hw, ?_⟩⟩
  rw [s.memWrite_outside v h]
  exact ⟨fun x hx => s.rawRead_rawWrite_other v (by simpa using hx), hsame⟩

end Sys2Proof
end

section
/-! PROOFS. The decoder and the encoder (spec/30_encoding.md R110 to R128). An instruction stands for its row of the
opcode table, whose mask and match are those of Laws/PerInstr. -/

namespace Sys2Proof
open Laws

/-- The instruction of i's row whose operands are the fields of w, where R113 to R119 place them. -/
def Instr.readFrom (w : Word) : Instr → Instr
  | .add _ _ _ => .add (.ofBits (field w 9 3)) (.ofBits (field w 6 3)) (.ofBits (field w 0 3))
  | .addi _ _ _ => .addi (.ofBits (field w 9 3)) (.ofBits (field w 6 3)) (sext 5 (field w 0 5))
  | .and _ _ _ => .and (.ofBits (field w 9 3)) (.ofBits (field w 6 3)) (.ofBits (field w 0 3))
  | .andi _ _ _ => .andi (.ofBits (field w 9 3)) (.ofBits (field w 6 3)) (sext 5 (field w 0 5))
  | .not _ _ => .not (.ofBits (field w 9 3)) (.ofBits (field w 6 3))
  | .br _ _ _ _ => .br (w.getLsbD 11) (w.getLsbD 10) (w.getLsbD 9) (sext 9 (field w 0 9))
  | .jmp _ => .jmp (.ofBits (field w 6 3))
  | .jsr _ => .jsr (sext 11 (field w 0 11))
  | .jsrr _ => .jsrr (.ofBits (field w 6 3))
  | .ld _ _ => .ld (.ofBits (field w 9 3)) (sext 9 (field w 0 9))
  | .ldi _ _ => .ldi (.ofBits (field w 9 3)) (sext 9 (field w 0 9))
  | .ldr _ _ _ => .ldr (.ofBits (field w 9 3)) (.ofBits (field w 6 3)) (sext 6 (field w 0 6))
  | .lea _ _ => .lea (.ofBits (field w 9 3)) (sext 9 (field w 0 9))
  | .st _ _ => .st (.ofBits (field w 9 3)) (sext 9 (field w 0 9))
  | .sti _ _ => .sti (.ofBits (field w 9 3)) (sext 9 (field w 0 9))
  | .str _ _ _ => .str (.ofBits (field w 9 3)) (.ofBits (field w 6 3)) (sext 6 (field w 0 6))
  | .trap _ => .trap (field w 0 8)
  | .rti _ => .rti (field w 0 12)
  | .res _ => .res (field w 0 12)

/-- Every row's mask covers the opcode (R111). -/
theorem field_mask_opcode (i : Instr) : field (TableRow.mask i) 12 4 = BitVec.allOnes 4 := by
  cases i <;> simp [TableRow.mask, field]

/-- Decoding by the opcode table: a word that shows a row's match is that row's instruction with the word's fields. The
opcode selects the row, with bit 5 for ADD and AND and bit 11 for JSR and JSRR (R121). -/
theorem decode_of_row {w : Word} {i : Instr} (h : w &&& TableRow.mask i = TableRow.pattern i) :
    decode w = .ok (i.readFrom w) := by
  have hop : field w 12 4 = field (TableRow.pattern i) 12 4 := field_of_masked h (field_mask_opcode i)
  rw [decode, hop]
  cases i with
  | add | addi | and | andi =>
    have hform : w.getLsbD 5 = _ := bit_of_masked h (by simp [TableRow.mask])
    rw [hform]
    simp [TableRow.pattern, field, Instr.readFrom]
  | jsr | jsrr =>
    have hform : w.getLsbD 11 = _ := bit_of_masked h (by simp [TableRow.mask])
    rw [hform]
    simp [TableRow.pattern, field, Instr.readFrom]
  | _ => simp [TableRow.pattern, field, Instr.readFrom]

/-- The same for an instruction whose operands are known to be the word's fields. -/
theorem decode_eq_ok {w : Word} {i : Instr} (h : w &&& TableRow.mask i = TableRow.pattern i)
    (hops : i.readFrom w = i) : decode w = .ok i := by
  rw [decode_of_row h, hops]

/-- Laws/PerInstr's facts about the encodings, as one over every instruction. -/
theorem encode_shows_row : ∀ i : Instr, encode i &&& TableRow.mask i = TableRow.pattern i
  | .add .. => TableRow.add ..
  | .addi .. => TableRow.addi ..
  | .and .. => TableRow.and ..
  | .andi .. => TableRow.andi ..
  | .not .. => TableRow.not ..
  | .br .. => TableRow.br ..
  | .jmp .. => TableRow.jmp ..
  | .jsr .. => TableRow.jsr ..
  | .jsrr .. => TableRow.jsrr ..
  | .ld .. => TableRow.ld ..
  | .ldi .. => TableRow.ldi ..
  | .ldr .. => TableRow.ldr ..
  | .lea .. => TableRow.lea ..
  | .st .. => TableRow.st ..
  | .sti .. => TableRow.sti ..
  | .str .. => TableRow.str ..
  | .trap .. => TableRow.trap ..
  | .rti .. => TableRow.rti ..
  | .res .. => TableRow.res ..

/-- Encoding loses no operand of a well-formed instruction: each field of the word is the part of the format that was
put there, and widening an immediate's low bits gives the immediate back. -/
theorem readFrom_encode {i : Instr} (h : i.wellFormed = true) : i.readFrom (encode i) = i := by
  cases i
  all_goals
    simp only [Instr.wellFormed] at h
    simp only [Instr.readFrom, encode, field, BitVec.extractLsb'_append_eq_of_le,
      BitVec.extractLsb'_append_eq_of_add_le, BitVec.extractLsb'_eq_self, Nat.reduceLeDiff, Nat.reduceSub,
      Reg.ofBits_toBits, sext_setWidth, h]
  -- BR's condition bits are read as single bits, not as fields (R116).
  case br =>
    simp only [BitVec.getLsbD_append]
    simp

/-! Ignored bits (R126). -/

/-- The bits of i's row that are neither under its mask nor in a named field (R113 to R119). -/
def Instr.ignored : Instr → Word
  | .add _ _ _ | .and _ _ _ => 0x0018#16
  | .not _ _ => 0x003F#16
  | .jmp _ => 0x0E3F#16
  | .jsrr _ => 0x063F#16
  | .trap _ => 0x0F00#16
  | _ => 0#16

theorem ignored_and_mask (i : Instr) : i.ignored &&& TableRow.mask i = 0#16 := by
  cases i <;> simp [Instr.ignored, TableRow.mask]

/-- Changing bits outside the mask k leaves what the word shows under k. -/
theorem masked_xor_and {w x m k : Word} (hmk : m &&& k = 0#16) : (w ^^^ (x &&& m)) &&& k = w &&& k := by
  ext j hj
  have hbit : (m[j] && k[j]) = false := by simpa using congrArg (·[j]) hmk
  simp [Bool.and_xor_distrib_right, Bool.and_assoc, hbit]

/-- Changing bits outside a field leaves the field. -/
theorem field_xor_and {w x m : Word} {lo len : Nat} (hm : field m lo len = 0#len) :
    field (w ^^^ (x &&& m)) lo len = field w lo len := by
  have hx : field (x &&& m) lo len = 0#len := by rw [field_and, hm, BitVec.and_zero]
  rw [field, BitVec.extractLsb'_xor, ← field, ← field, hx, BitVec.xor_zero]

theorem readFrom_xor_ignored (w x : Word) (i : Instr) : i.readFrom (w ^^^ (x &&& i.ignored)) = i.readFrom w := by
  cases i with
  | add | and | not | jmp | jsrr | trap =>
    simp (disch := decide) only [Instr.readFrom, Instr.ignored, field_xor_and]
  | _ => simp [Instr.ignored]

/-- A row's ignored bits do not change what a word of the row decodes to. -/
theorem decode_xor_ignored {w : Word} {i : Instr} (x : Word) (h : w &&& TableRow.mask i = TableRow.pattern i) :
    decode (w ^^^ (x &&& i.ignored)) = decode w := by
  have h' : (w ^^^ (x &&& i.ignored)) &&& TableRow.mask i = TableRow.pattern i :=
    (masked_xor_and (ignored_and_mask i)).trans h
  rw [decode_of_row h', decode_of_row h, readFrom_xor_ignored]

/-- Settles O4: the word of an instruction shows the instruction's row, and its fields are the operands. -/
theorem decodeOfEncode : Obligations.DecodeOfEncode :=
  fun i h => decode_eq_ok (encode_shows_row i) (readFrom_encode h)

/-- Settles O3, by the decoder's arms: no opcode is left for the error, and an operand that is widened lies in the range
of its field. -/
theorem everyWordDecodes : Obligations.EveryWordDecodes := by
  intro w
  have hop : (field w 12 4).toNat < 16 := (field w 12 4).isLt
  unfold decode
  split
  case h_17 =>
    simp only [imp_false] at *
    omega
  case h_2 | h_5 | h_6 =>
    split <;> exact ⟨_, rfl, by simp [Instr.wellFormed, fitsSigned_sext]⟩
  all_goals exact ⟨_, rfl, by simp [Instr.wellFormed, fitsSigned_sext]⟩

/-- Settles O5: each clause is decoding by the opcode table, at the clause's row. -/
theorem tableRowsDecode : Obligations.TableRowsDecode := by
  intro w d b off9 off6
  and_intros <;> exact fun h => decode_eq_ok h rfl

/-- Settles O6: each clause's bits are the ignored bits of its row, named here by one of its instructions. -/
theorem ignoredBitsIgnored : Obligations.IgnoredBitsIgnored := by
  intro w x
  exact ⟨decode_xor_ignored (i := .add .r0 .r0 .r0) x, decode_xor_ignored (i := .and .r0 .r0 .r0) x,
    decode_xor_ignored (i := .not .r0 .r0) x, decode_xor_ignored (i := .jmp .r0) x,
    decode_xor_ignored (i := .jsrr .r0) x, decode_xor_ignored (i := .trap 0#8) x⟩

end Sys2Proof
end

section
/-! PROOFS. Operate (spec/40_operate.md R150 to R155), whose meanings all end in setRegCc, and the spec's example
words. -/

namespace Sys2Proof.Machine

theorem State.setRegCc_reg_same (s : State) (r : Reg) (v : Word) : (s.setRegCc r v).reg r = v := by
  rw [State.setRegCc_reg, if_pos rfl]

/-- The frame of a flag-defining result (R38): only its destination and COND may change. -/
theorem State.setRegCc_onlyRegsCond (s : State) (r : Reg) (v : Word) : OnlyRegsCond [r] s (s.setRegCc r v) := by
  refine ⟨fun q hq => ?regs, s.setRegCc_pc r v, fun a _ => s.setRegCc_rawRead r v a, ?control, ?ports⟩
  case regs => rw [State.setRegCc_reg, if_neg (by simpa using hq)]
  case control => simp [ControlKept]
  case ports => simp [PortsKept, ConsoleKept]

/-- The flags and the frame of every operate instruction, whatever its result. -/
theorem State.setRegCc_flagsAndFrame (s : State) (r : Reg) (v : Word) :
    (s.setRegCc r v).cond = condOf ((s.setRegCc r v).reg r) ∧ OnlyRegsCond [r] s (s.setRegCc r v) :=
  ⟨s.setRegCc_cond_eq r v, s.setRegCc_onlyRegsCond r v⟩

/-- NOT's exclusive or with sixteen ones complements each of the sixteen bits (R154). -/
theorem getLsbD_xor_ones (x : Word) {j : Nat} (hj : j < 16) : (x ^^^ 0xFFFF#16).getLsbD j = !x.getLsbD j := by
  have hones : 0xFFFF#16 = BitVec.allOnes 16 := rfl
  rw [hones, BitVec.xor_allOnes, BitVec.getLsbD_not, decide_eq_true hj, Bool.true_and]

end Sys2Proof.Machine

namespace Sys2Proof
open Machine

/-- Settles O7: each word shows its row's match, and its fields are the operands. -/
theorem exampleWordsDecode : Obligations.ExampleWordsDecode := by
  unfold Obligations.ExampleWordsDecode
  and_intros <;> exact decode_eq_ok rfl rfl

/-- Settles O21: the sum of words is the sum of their values modulo 2^16. -/
theorem addRegisterEffect : Obligations.AddRegisterEffect := fun dr _ _ s =>
  ⟨_, rfl, by rw [State.setRegCc_reg_same, BitVec.toNat_add], s.setRegCc_flagsAndFrame dr _⟩

/-- Settles O22: likewise with the immediate for the second register. -/
theorem addImmediateEffect : Obligations.AddImmediateEffect := fun dr _ _ s =>
  ⟨_, rfl, by rw [State.setRegCc_reg_same, BitVec.toNat_add], s.setRegCc_flagsAndFrame dr _⟩

/-- Settles O23: the conjunction of words is bit by bit. -/
theorem andRegisterEffect : Obligations.AndRegisterEffect := fun dr _ _ s =>
  ⟨_, rfl, fun _ => by rw [State.setRegCc_reg_same, BitVec.getLsbD_and], s.setRegCc_flagsAndFrame dr _⟩

/-- Settles O24: likewise with the immediate for the second register. -/
theorem andImmediateEffect : Obligations.AndImmediateEffect := fun dr _ _ s =>
  ⟨_, rfl, fun _ => by rw [State.setRegCc_reg_same, BitVec.getLsbD_and], s.setRegCc_flagsAndFrame dr _⟩

/-- Settles O25: NOT's mask complements each of the sixteen bits. -/
theorem notEffect : Obligations.NotEffect := fun dr _ s =>
  ⟨_, rfl, fun _ hj => by rw [State.setRegCc_reg_same, getLsbD_xor_ones _ hj], s.setRegCc_flagsAndFrame dr _⟩

end Sys2Proof
end

section
/-! PROOFS. Control (spec/41_control.md R170 to R175): the frame of a jump, BR by its test, and the link of JSR and
JSRR. -/

namespace Sys2Proof.Machine

/-! The frame of a jump. -/

theorem OnlyRegsPc.refl (ds : List Reg) (s : State) : OnlyRegsPc ds s s :=
  ⟨fun _ _ => rfl, rfl, fun _ _ => rfl, ⟨rfl, rfl, rfl, rfl⟩, ⟨rfl, rfl, rfl⟩, rfl⟩

/-- The frame says nothing of PC, so a jump keeps it. -/
theorem OnlyRegsPc.setPc {ds : List Reg} {s t : State} (h : OnlyRegsPc ds s t) (v : Word) :
    OnlyRegsPc ds s (t.setPc v) := h

theorem State.setPc_onlyRegsPc (s : State) (v : Word) : OnlyRegsPc [] s (s.setPc v) := (OnlyRegsPc.refl [] s).setPc v

/-! BR by its test (R170, R171). -/

theorem exec_br_taken {n z p : Bool} {s : State} (off : Word) (h : branchTaken n z p s.cond = true) :
    exec (.br n z p off) s = .next (s.setPc (s.pc + off)) := congrArg Host.Outcome.next (if_pos h)

theorem exec_br_notTaken {n z p : Bool} {s : State} (off : Word) (h : ¬branchTaken n z p s.cond = true) :
    exec (.br n z p off) s = .next s := congrArg Host.Outcome.next (if_neg h)

/-- Each legal COND shows a flag, which the full mask meets. -/
theorem branchTaken_all {c : Word} (h : CondLegal c) : branchTaken true true true c = true := by
  rcases h with rfl | rfl | rfl <;> rfl

/-- The empty mask meets no COND. -/
theorem not_branchTaken_none (c : Word) : ¬branchTaken false false false c = true := by
  simp [branchTaken_iff]

/-! The link of JSR and JSRR (R32, R174, R175). -/

theorem State.link_onlyRegsPc (s : State) : OnlyRegsPc [.r7] s s.link := by
  refine ⟨fun q hq => ?regs, s.link_cond, fun a _ => s.link_rawRead a, ?control, ?ports⟩
  case regs => rw [State.link_reg, if_neg (by simpa using hq)]
  case control => simp [ControlKept]
  case ports => simp [PortsKept, ConsoleKept]

/-- The link register after a call is the incremented PC, wherever the call goes on. -/
theorem State.link_setPc_r7 (s : State) (v : Word) : (s.link.setPc v).reg .r7 = s.pc := by
  rw [State.setPc_reg, State.link_reg, if_pos rfl]

theorem State.link_setPc_onlyRegsPc (s : State) (v : Word) : OnlyRegsPc [.r7] s (s.link.setPc v) :=
  s.link_onlyRegsPc.setPc v

/-! The step. -/

/-- A running machine that is not held runs the instruction fetched (R263). -/
theorem step_of_decode {s : State} {i : Instr} (hrun : s.run = .running) (hheld : s.held = none)
    (hdec : decode s.fetch.1 = .ok i) : step s = exec i s.fetch.2 := by
  unfold step
  rw [hrun, hheld]
  simp only [hdec]

/-- Away from KBSR_ADDR the instruction is that of the stored word, run with PC incremented and no other change. -/
theorem step_of_decode_plain {s : State} {i : Instr} (hrun : s.run = .running) (hheld : s.held = none)
    (hpc : s.pc ≠ kbsrAddr) (hdec : decode (s.rawRead s.pc) = .ok i) : step s = exec i (s.setPc (s.pc + 1#16)) := by
  have hfetch := s.fetch_plain hpc
  rw [step_of_decode hrun hheld (by rwa [hfetch]), hfetch]

end Sys2Proof.Machine

namespace Sys2Proof
open Machine

/-- Settles O26: BR's test is the statement's condition, and taken or not, BR is a jump or nothing at all. -/
theorem branchEffect : Obligations.BranchEffect := by
  intro n z p off s
  by_cases htaken : branchTaken n z p s.cond = true
  · exact ⟨_, exec_br_taken off htaken, s.setPc_onlyRegsPc _, fun _ => rfl,
      fun hnot => absurd ((branchTaken_iff ..).1 htaken) hnot, fun _ _ _ _ => rfl⟩
  · refine ⟨_, exec_br_notTaken off htaken, .refl [] s, fun hmeets => absurd ((branchTaken_iff ..).2 hmeets) htaken,
      fun _ => rfl, ?all⟩
    case all =>
      rintro rfl rfl rfl hlegal
      exact absurd (branchTaken_all hlegal) htaken

/-- The zero word shows BR's row, and its fields are a BR with no condition bit (R171). -/
theorem decode_zero : decode 0x0000#16 = .ok (.br false false false 0#16) := decode_eq_ok rfl rfl

/-- Settles O27: the empty mask is never met, so a step over the zero word is its fetch. -/
theorem branchNeverIsNop : Obligations.BranchNeverIsNop := by
  have hnop (off : Word) (s : State) : exec (.br false false false off) s = .next s :=
    exec_br_notTaken off (not_branchTaken_none s.cond)
  refine ⟨hnop, decode_zero, fun s hrun hheld hpc hzero => ?step⟩
  case step =>
    have hdec : decode (s.rawRead s.pc) = .ok (.br false false false 0#16) := by rw [hzero, decode_zero]
    rw [step_of_decode_plain hrun hheld hpc hdec, hnop]

/-- Settles O28: JMP is a jump. -/
theorem jumpEffect : Obligations.JumpEffect := fun _ s => ⟨_, rfl, rfl, s.setPc_onlyRegsPc _⟩

/-- Settles O29: JSR is the link and a jump. -/
theorem jsrEffect : Obligations.JsrEffect := fun _ s =>
  ⟨_, rfl, s.link_setPc_r7 _, rfl, s.link_setPc_onlyRegsPc _⟩

/-- Settles O30: JSRR is the link and a jump to a register read after it, which is the link where it is R7. -/
theorem jsrrEffect : Obligations.JsrrEffect := by
  intro base s
  refine ⟨_, rfl, s.link_setPc_r7 _, fun hother => ?other, fun hr7 => ?link, s.link_setPc_onlyRegsPc _⟩
  case other => rw [State.setPc_pc, State.link_reg, if_neg hother]
  case link => rw [State.setPc_pc, State.link_reg, if_pos hr7]

end Sys2Proof
end

section
/-! PROOFS. Load and store (spec/42_load_store.md R190 to R197). One access is State.loadReg_loaded or
State.memWrite_stored; the indirect forms put it after the pointer's read, whose frame it is joined to. -/

namespace Sys2Proof.Machine

/-! Frames, one after another. -/

theorem RegsKept.trans {ds : List Reg} {s t u : State} (h : RegsKept ds s t) (k : RegsKept ds t u) : RegsKept ds s u :=
  fun r hr => (k r hr).trans (h r hr)

theorem MemoryKept.trans {ws : List Word} {s t u : State} (h : MemoryKept ws s t) (k : MemoryKept ws t u) :
    MemoryKept ws s u := fun a ha => (k a ha).trans (h a ha)

theorem ControlKept.trans {s t u : State} (h : ControlKept s t) (k : ControlKept t u) : ControlKept s u := by
  obtain ⟨hrun, habort, hheld, hcfg⟩ := h
  obtain ⟨krun, kabort, kheld, kcfg⟩ := k
  exact ⟨krun.trans hrun, kabort.trans habort, kheld.trans hheld, kcfg.trans hcfg⟩

theorem ReadFrame.regsKept {s t : State} (h : ReadFrame s t) (ds : List Reg) : RegsKept ds s t := fun r _ => h.reg r

theorem ReadFrame.controlKept {s t : State} (h : ReadFrame s t) : ControlKept s t :=
  ⟨h.run, h.abortInfo, h.held, h.cfg⟩

/-! The load and the pointer, by the address read. -/

/-- A load from anywhere but KBSR_ADDR is of the stored word and has no side effect. -/
theorem Loaded.plain {dr : Reg} {ea : Word} {s t : State} (h : Loaded dr ea s t) (hea : ea ≠ kbsrAddr) :
    t.reg dr = s.rawRead ea ∧ MemoryKept [] s t ∧ PortsKept s t := by
  obtain ⟨-, -, -, -, -, -, -, hplain, -⟩ := h
  exact hplain hea

/-- An indirect access whose pointer is not at KBSR_ADDR goes to the stored word, in an unchanged state. -/
theorem State.indirect_plain (s : State) {off : Word} (h : s.pc + off ≠ kbsrAddr) :
    s.indirect off = (s.rawRead (s.pc + off), s) := s.memRead_plain h

/-- Wherever it reads, a load changes no word of memory but KBSR and KBDR, and of the ports only the console input. -/
theorem Loaded.keepsMemoryAndOutput {dr : Reg} {ea : Word} {s t : State} (h : Loaded dr ea s t) :
    MemoryKept [kbsrAddr, kbdrAddr] s t ∧ t.consoleOut = s.consoleOut ∧ t.log = s.log := by
  obtain ⟨-, -, -, -, -, hmem, ⟨⟨-, -, hout⟩, hlog⟩, -, -⟩ := h
  have hread := s.memRead_frame ea
  exact ⟨hread.mem.trans fun a _ => hmem a List.not_mem_nil, hout.trans hread.consoleOut, hlog.trans hread.log⟩

end Sys2Proof.Machine

namespace Sys2Proof
open Machine

/-- Settles O31: LD is one load. -/
theorem ldEffect : Obligations.LdEffect := fun dr _ s => ⟨_, rfl, s.loadReg_loaded dr _⟩

/-- Settles O33: LDR is one load, at the base register's value before it. -/
theorem ldrEffect : Obligations.LdrEffect := fun dr _ _ s => ⟨_, rfl, s.loadReg_loaded dr _⟩

/-- Settles O34: LEA is a flag-defining result, the address. -/
theorem leaEffect : Obligations.LeaEffect := fun dr _ s =>
  ⟨_, rfl, s.setRegCc_reg_same dr _, s.setRegCc_cond dr _, s.setRegCc_onlyRegsCond dr _⟩

/-- Settles O35: ST is one store. -/
theorem stEffect : Obligations.StEffect := fun _ _ s hw => ⟨_, rfl, s.memWrite_stored _ _ hw⟩

/-- Settles O37: STR is one store. -/
theorem strEffect : Obligations.StrEffect := fun _ _ _ s hw => ⟨_, rfl, s.memWrite_stored _ _ hw⟩

/-- Settles O32: LDI is a load in the state that the pointer's read leaves, which is s itself away from KBSR_ADDR. -/
theorem ldiEffect : Obligations.LdiEffect := by
  intro dr off s
  have hread := s.memRead_frame (s.pc + off)
  have hload := (s.memRead (s.pc + off)).2.loadReg_loaded dr (s.memRead (s.pc + off)).1
  have ⟨_, _, hregs, hpc, hcontrol, _⟩ := hload
  obtain ⟨hmem, hout, hlog⟩ := hload.keepsMemoryAndOutput
  refine ⟨_, rfl, hload, (hread.regsKept _).trans hregs, hpc.trans hread.pc, hread.controlKept.trans hcontrol,
    hread.mem.trans hmem, hout.trans hread.consoleOut, hlog.trans hread.log, fun hptr hdatum => ?plain⟩
  case plain =>
    rw [s.indirect_plain hptr]
    exact (s.loadReg_loaded dr _).plain hdatum

/-- Settles O36: STI is a store in the state that the pointer's read leaves, which is s itself away from KBSR_ADDR. -/
theorem stiEffect : Obligations.StiEffect := by
  intro sr off s hw
  have hread := s.memRead_frame (s.pc + off)
  have hstore := (s.memRead (s.pc + off)).2.memWrite_stored (s.memRead (s.pc + off)).1 (s.reg sr) (hread.wf hw)
  have ⟨hregs, hpc, hcond, hcontrol, ⟨_, _, hout⟩, _⟩ := hstore
  refine ⟨_, rfl, hstore, (hread.regsKept _).trans hregs, hpc.trans hread.pc, hcond.trans hread.cond,
    hread.controlKept.trans hcontrol, hout.trans hread.consoleOut, fun hptr => ?plain⟩
  case plain =>
    rw [s.indirect_plain hptr]
    exact s.memWrite_stored _ _ hw

end Sys2Proof
end

section
/-! PROOFS. TRAP and its services (spec/43_trap.md R220 to R232): the link and what each service adds to it, the strings
of PUTS and PUTSP, and the blocking read of GETC and IN. -/

namespace Sys2Proof.Machine

/-! The link, and the services that only write a port (R220, R223, R224, R227, R232). -/

/-- t is s after the link and no more, as far as everything but the output goes: R7 alone is changed. -/
def Linked (s t : State) : Prop :=
  RegsKept [.r7] s t ∧ t.reg .r7 = s.pc ∧ t.pc = s.pc ∧ t.cond = s.cond ∧ MemoryKept [] s t ∧ ControlKept s t ∧
  t.consoleIn = s.consoleIn ∧ t.consoleEnded = s.consoleEnded ∧ t.log = s.log

theorem State.link_linked (s : State) : Linked s s.link := by
  obtain ⟨hregs, hcond, hmem, hcontrol, ⟨hin, hended, -⟩, hlog⟩ := s.link_onlyRegsPc
  exact ⟨hregs, s.link_setPc_r7 s.pc, s.link_pc, hcond, hmem, hcontrol, hin, hended, hlog⟩

/-- The frame says nothing of the output, so an emit keeps it. -/
theorem Linked.emit {s t : State} (h : Linked s t) (cs : List Byte) : Linked s (t.emit cs) := h

/-- A vector outside the service table (R221, R232). -/
theorem exec_trap_unknown {v : Byte} (s : State) (hv : v.toNat < 0x20 ∨ 0x25 < v.toNat) :
    exec (.trap v) s = .next (s.link.report (.unknownTrap v)) := by
  rcases s.link.service_cases v with ⟨rfl, -⟩ | ⟨rfl, -⟩ | ⟨rfl, -⟩ | ⟨rfl, -⟩ | ⟨rfl, -⟩ | ⟨rfl, -⟩ | ⟨-, e⟩
  case inr.inr.inr.inr.inr.inr => exact e
  all_goals exact absurd hv (by decide)

/-! The strings of PUTS and PUTSP. The link writes R7, so the walk is still from s's R0 over s's memory. -/

theorem State.link_string_some {s : State} {n : Nat} (h : StringAt s (s.reg .r0) n) :
    s.link.string = some (stringWords s (s.reg .r0) n) := s.link.string_some h

theorem State.link_string_none (s : State) : s.link.string = none ↔ NoZeroWord s := s.link.string_none

theorem exec_puts (s : State) : exec (.trap 0x22#8) s = s.link.servicePuts := rfl

theorem exec_putsp (s : State) : exec (.trap 0x24#8) s = s.link.servicePutsp := rfl

/-- PUTSP's characters of one word: the low byte always, the high byte after it unless it is zero (R227). -/
theorem charsPutsp_eq (ws : List Word) :
    charsPutsp ws = ws.flatMap fun w => field w 0 8 :: if field w 8 8 = 0#8 then [] else [field w 8 8] := by
  refine congrArg ws.flatMap (funext fun w => ?_)
  unfold lowChar highChar
  split <;> rfl

theorem exec_puts_string {s : State} {n : Nat} (h : StringAt s (s.reg .r0) n) : exec (.trap 0x22#8) s =
    .next (s.link.emit ((stringWords s (s.reg .r0) n).map fun w => field w 0 8)) := by
  rw [exec_puts, State.servicePuts, State.link_string_some h]
  rfl

theorem exec_putsp_string {s : State} {n : Nat} (h : StringAt s (s.reg .r0) n) : exec (.trap 0x24#8) s =
    .next (s.link.emit ((stringWords s (s.reg .r0) n).flatMap fun w =>
      field w 0 8 :: if field w 8 8 = 0#8 then [] else [field w 8 8])) := by
  rw [exec_putsp, State.servicePutsp, State.link_string_some h, ← charsPutsp_eq]

theorem exec_stringService_endless {v : Byte} {s : State} (hv : v = 0x22#8 ∨ v = 0x24#8) (h : NoZeroWord s) :
    exec (.trap v) s = .fault .stringNeverEnds := by
  have hstring := s.link_string_none.2 h
  rcases hv with rfl | rfl
  · rw [exec_puts, State.servicePuts, hstring]
  · rw [exec_putsp, State.servicePutsp, hstring]

/-! The blocking read (R49), in any state. -/

/-- The console answers a blocking read with x and leaves rest: the next character, or the end of input (R49). -/
def State.Answers (s : State) (x : Word) (rest : List ConsoleEvent) : Prop :=
  (∃ c, nextKey s.consoleIn = some (c, rest) ∧ x = zext c) ∨
  (nextKey s.consoleIn = none ∧ s.consoleEnded = true ∧ x = 0xFFFF#16 ∧ rest = s.consoleIn)

/-- A read of x completes: R0 holds it, COND follows it where TRAP_IN_SETS_FLAGS is set, and IN echoes it. -/
theorem State.inputService_receives {s : State} {x : Word} {rest : List ConsoleEvent} (svc : InputService)
    (h : s.Answers x rest) :
    (s.inputService svc).reg .r0 = x ∧ (s.inputService svc).held = none ∧
    (s.inputService svc).cond = (if s.cfg.trapInSetsFlags then condOf x else s.cond) ∧
    (s.inputService svc).consoleIn = rest ∧
    (s.inputService svc).consoleOut = (if svc = .inEcho then s.consoleOut ++ [field x 0 8] else s.consoleOut) := by
  rw [State.inputService_completes svc h]
  obtain ⟨hr0, -, -, -, hheld, hcond, hin, -, hout⟩ := (s.readDone rest).receive_fields svc x
  exact ⟨hr0, hheld, hcond, hin, hout⟩

theorem State.inputService_holds {s : State} (svc : InputService) (hkey : nextKey s.consoleIn = none)
    (hopen : s.consoleEnded = false) : s.inputService svc = s.setHeld (some svc) := by
  simp only [State.inputService, State.consoleGet, hkey, hopen, Bool.false_eq_true, if_false]

/-- With no character to come the input is kept, whether it has ended or not. -/
theorem State.inputService_consoleIn_kept {s : State} (svc : InputService) (hkey : nextKey s.consoleIn = none) :
    (s.inputService svc).consoleIn = s.consoleIn := by
  cases hended : s.consoleEnded with
  | false => rw [State.inputService_holds svc hkey hended, State.setHeld_consoleIn]
  | true =>
    obtain ⟨-, -, -, hin, -⟩ := State.inputService_receives svc (.inr ⟨hkey, hended, rfl, rfl⟩)
    exact hin

/-- The console answers a read, or nothing is supplied and the read is held. -/
theorem State.answers_or_open (s : State) :
    (∃ x rest, s.Answers x rest) ∨ (nextKey s.consoleIn = none ∧ s.consoleEnded = false) := by
  rcases s.consoleGet_cases with ⟨c, rest, hkey, -⟩ | ⟨hkey, hended, -⟩ | ⟨hkey, hopen, -⟩
  · exact .inl ⟨zext c, rest, .inl ⟨c, hkey, rfl⟩⟩
  · exact .inl ⟨0xFFFF#16, s.consoleIn, .inr ⟨hkey, hended, rfl, rfl⟩⟩
  · exact .inr ⟨hkey, hopen⟩

/-- Completed or held, the read keeps every register but R0, and PC, memory and log. -/
theorem State.inputService_keeps (s : State) (svc : InputService) :
    RegsKept [.r0] s (s.inputService svc) ∧ (s.inputService svc).pc = s.pc ∧ MemoryKept [] s (s.inputService svc) ∧
    (s.inputService svc).log = s.log := by
  rcases s.answers_or_open with ⟨x, rest, h⟩ | ⟨hkey, hopen⟩
  · rw [State.inputService_completes svc h]
    obtain ⟨-, hregs, hpc, hmem, -, -, -, hlog, -⟩ := (s.readDone rest).receive_fields svc x
    exact ⟨fun r hr => hregs r (by simpa using hr), hpc, fun a _ => congrArg (Memory.get · a.toNat) hmem, hlog⟩
  · rw [State.inputService_holds svc hkey hopen]
    exact ⟨fun _ _ => rfl, rfl, fun _ _ => rfl, rfl⟩

/-! GETC and IN as instructions (R222, R226). -/

/-- The vector of a service that reads the console (R221). -/
def InputService.vector : InputService → Byte
  | .getc => 0x20#8
  | .inEcho => 0x23#8

/-- GETC and IN are the two services that read (R222, R226). -/
theorem exists_vector_iff {v : Byte} : (∃ svc : InputService, v = svc.vector) ↔ v = 0x20#8 ∨ v = 0x23#8 := by
  constructor
  · rintro ⟨_ | _, rfl⟩
    · exact .inl rfl
    · exact .inr rfl
  · rintro (rfl | rfl)
    · exact ⟨.getc, rfl⟩
    · exact ⟨.inEcho, rfl⟩

/-- The state in which the read begins: linked, and IN's prompt emitted. -/
def State.prompted (s : State) : InputService → State
  | .getc => s.link
  | .inEcho => s.link.emit s.cfg.inPrompt

theorem exec_trap_vector (svc : InputService) (s : State) :
    exec (.trap svc.vector) s = .next ((s.prompted svc).inputService svc) := by cases svc <;> rfl

theorem State.prompted_linked (s : State) (svc : InputService) : Linked s (s.prompted svc) := by
  cases svc
  · exact s.link_linked
  · exact s.link_linked.emit _

theorem State.prompted_reg_r0 (s : State) (svc : InputService) : (s.prompted svc).reg .r0 = s.reg .r0 := by
  cases svc <;> rfl

/-- What GETC and IN keep, whether the read completes or is held. -/
structure InputFrame (s t : State) : Prop where
  log : t.log = s.log
  consoleEnded : t.consoleEnded = s.consoleEnded
  r7 : t.reg .r7 = s.pc
  pc : t.pc = s.pc
  regs : RegsKept [.r0, .r7] s t
  mem : MemoryKept [] s t
  run : t.run = s.run
  abortInfo : t.abortInfo = s.abortInfo
  cfg : t.cfg = s.cfg

theorem State.prompted_inputService_frame (s : State) (svc : InputService) :
    InputFrame s ((s.prompted svc).inputService svc) := by
  obtain ⟨hregs, hr7, hpc, -, hmem, ⟨hrun, habort, -, hcfg⟩, -, hended, hlog⟩ := s.prompted_linked svc
  obtain ⟨kregs, kpc, kmem, klog⟩ := (s.prompted svc).inputService_keeps svc
  have kframe := (s.prompted svc).inputService_runFrame svc
  refine ⟨klog.trans hlog, kframe.consoleEnded.trans hended, (kregs .r7 (by decide)).trans hr7, kpc.trans hpc,
    fun r hr => ?regs, hmem.trans kmem, kframe.run.trans hrun, kframe.abortInfo.trans habort, kframe.cfg.trans hcfg⟩
  case regs =>
    simp only [List.mem_cons, List.not_mem_nil, or_false, not_or] at hr
    obtain ⟨hr0, hr7⟩ := hr
    exact (kregs r (by simpa using hr0)).trans (hregs r (by simpa using hr7))

/-! A TRAP that completes. -/

/-- What a TRAP that completes comes to: a read, or the link and one more effect (R221). -/
inductive TrapOutcome (v : Byte) (s t : State) : Prop where
  /-- GETC, IN -/
  | read (svc : InputService) (hv : v = svc.vector) (eq : t = (s.prompted svc).inputService svc)
  /-- OUT, PUTS, PUTSP -/
  | emitted (cs : List Byte) (eq : t = s.link.emit cs)
  /-- HALT -/
  | halted (hv : v = 0x25#8) (eq : t = (s.link.emit s.cfg.haltMessage).halt)
  /-- a vector outside the table -/
  | unknown (eq : t = s.link.report (.unknownTrap v))

theorem exec_trap_outcome {v : Byte} {s t : State} (h : exec (.trap v) s = .next t) : TrapOutcome v s t := by
  change s.link.service v = .next t at h
  rcases s.link.service_cases v with ⟨hv, e⟩ | ⟨-, e⟩ | ⟨-, e⟩ | ⟨hv, e⟩ | ⟨-, e⟩ | ⟨hv, e⟩ | ⟨-, e⟩ <;> rw [e] at h
  · cases h
    exact .read .getc hv rfl
  · cases h
    exact .emitted _ rfl
  · obtain ⟨cs, eq⟩ := stringService_next (.inl rfl) h
    exact .emitted cs eq
  · cases h
    exact .read .inEcho hv rfl
  · obtain ⟨cs, eq⟩ := stringService_next (.inr rfl) h
    exact .emitted cs eq
  · cases h
    exact .halted hv rfl
  · cases h
    exact .unknown rfl

end Sys2Proof.Machine

namespace Sys2Proof
open Machine

/-- Settles O46, by what a completed TRAP comes to: a read by its own frame, and every other service by the link's. -/
theorem trapLinksAndGoesOn : Obligations.TrapLinksAndGoesOn := by
  intro v s t h
  obtain ⟨hregs, hr7, hpc, hcond, hmem, ⟨hrun, habort, hheld, hcfg⟩, hin, -, -⟩ := s.link_linked
  have hr0 : s.link.reg .r0 = s.reg .r0 := hregs .r0 (by decide)
  have hregs' : RegsKept [.r0, .r7] s s.link := fun r hr => hregs r fun h7 => hr (.tail _ h7)
  cases exec_trap_outcome h with
  | read svc hv eq =>
    have hframe := eq ▸ s.prompted_inputService_frame svc
    refine ⟨hframe.r7, hframe.pc, hframe.regs, hframe.mem, hframe.abortInfo, hframe.cfg, fun hgetc hecho => ?_,
      fun _ => hframe.run⟩
    exact absurd (exists_vector_iff.1 ⟨svc, hv⟩) (by simp [hgetc, hecho])
  | emitted _ eq | unknown eq =>
    subst eq
    exact ⟨hr7, hpc, hregs', hmem, habort, hcfg, fun _ _ => ⟨hr0, hcond, hheld, hin⟩, fun _ => hrun⟩
  | halted hv eq =>
    subst eq
    exact ⟨hr7, hpc, hregs', hmem, habort, hcfg, fun _ _ => ⟨hr0, hcond, hheld, hin⟩, fun hne => absurd hv hne⟩

/-- Settles O47: the frame of the read whether it completes or not, what it receives, and the hold. -/
theorem inputServicesReadR0 : Obligations.InputServicesReadR0 := by
  intro v s hv
  obtain ⟨svc, rfl⟩ := exists_vector_iff.2 hv
  obtain ⟨-, -, -, hcond, -, ⟨-, -, -, hcfg⟩, hin, hended, -⟩ := s.prompted_linked svc
  have hframe := s.prompted_inputService_frame svc
  refine ⟨_, exec_trap_vector svc s, hframe.log, hframe.consoleEnded, hframe.r7, hframe.pc, hframe.regs, hframe.mem,
    hframe.run, hframe.abortInfo, hframe.cfg, fun x hx => ?reads, fun c rest hkey => ?rest, fun hkey => ?kept,
    fun hkey hopen => ?held⟩
  case reads =>
    have hanswers : ∃ rest, (s.prompted svc).Answers x rest := by
      simp only [State.Answers, hin, hended]
      rcases hx with ⟨c, rest, hc⟩ | ⟨hkey, hend, hx⟩
      · exact ⟨rest, .inl ⟨c, hc⟩⟩
      · exact ⟨s.consoleIn, .inr ⟨hkey, hend, hx, rfl⟩⟩
    obtain ⟨rest, hrest⟩ := hanswers
    obtain ⟨hr0, hheld, hcond', -, hout⟩ := State.inputService_receives svc hrest
    refine ⟨hr0, hheld, by rw [hcond', hcfg, hcond], ?_⟩
    cases svc <;> exact hout
  case rest =>
    rw [← hin] at hkey
    obtain ⟨-, -, -, hrest, -⟩ := State.inputService_receives svc (.inl ⟨c, hkey, rfl⟩)
    exact hrest
  case kept =>
    rw [← hin] at hkey ⊢
    exact State.inputService_consoleIn_kept svc hkey
  case held =>
    rw [← hin] at hkey
    rw [State.inputService_holds svc hkey (hended.trans hopen)]
    refine ⟨?_, s.prompted_reg_r0 svc, hcond, ?_⟩ <;> cases svc <;> rfl

/-- Settles O49: OUT is the link and one character, an unknown vector the link and one report. -/
theorem outAndUnknownVectorEffect : Obligations.OutAndUnknownVectorEffect := by
  refine ⟨fun s => ⟨_, rfl, rfl, s.link_linked.emit _⟩, fun v s hv => ?unknown⟩
  case unknown =>
    obtain ⟨hregs, hr7, hpc, hcond, hmem, hcontrol, hin, hended, hlog⟩ := s.link_linked
    exact ⟨_, exec_trap_unknown s hv, rfl, hregs, hr7, hpc, hcond, hmem, hcontrol, hin, hended, s.link_consoleOut⟩

/-- Settles O50: the walk ends at the string's zero word, and PUTS is the link and the string's characters. -/
theorem putsEmitsString : Obligations.PutsEmitsString := fun s _ h =>
  ⟨_, exec_puts_string h, rfl, s.link_linked.emit _⟩

/-- Settles O51: likewise for PUTSP. -/
theorem putspEmitsPackedString : Obligations.PutspEmitsPackedString := fun s _ h =>
  ⟨_, exec_putsp_string h, rfl, s.link_linked.emit _⟩

/-- Settles O52: the walk has no end exactly when no word is zero, and a walk with no end is the only stop there is. -/
theorem stringServicesStopExactlyOnNoZero : Obligations.StringServicesStopExactlyOnNoZero := by
  refine fun v s hv => ⟨exec_stringService_endless hv, fun hzero => ?completes⟩
  case completes =>
    rcases exec_stops (.trap v) s with hnext | ⟨-, -, hstring⟩
    · exact hnext
    · exact absurd (s.link_string_none.1 hstring) hzero

/-- Settles O53: HALT is the link, the message and the end of the run, in which no step acts. -/
theorem haltEndsTheRun : Obligations.HaltEndsTheRun := by
  intro s
  obtain ⟨hregs, hr7, hpc, hcond, hmem, ⟨-, habort, -, -⟩, hin, -, hlog⟩ := s.link_linked
  exact ⟨_, rfl, rfl, hr7, hpc, hregs, hcond, hmem, habort, rfl, hin, hlog, step_of_ended (.inl rfl), rfl⟩

end Sys2Proof
end

section
/-! PROOFS. RTI and the reserved opcode (spec/44_reserved.md R250, R251): what the fatal abort they both take writes, and
what it leaves alone. -/

namespace Sys2Proof.Machine

/-- t is s after an abort for the reason and word given: RUN and the record are written (R261), all else is as it was, and
no step leaves t (R43). -/
def AbortedAs (reason : AbortReason) (word : Word) (s t : State) : Prop :=
  t.run = .aborted ∧ t.abortInfo = some ⟨reason, word, s.pc - 1#16⟩ ∧ RegsKept [] s t ∧ t.pc = s.pc ∧ t.cond = s.cond ∧
  MemoryKept [] s t ∧ t.held = s.held ∧ t.cfg = s.cfg ∧ PortsKept s t ∧ step t = .next t

theorem State.raiseAbort_ports (s : State) (reason : AbortReason) (word : Word) :
    PortsKept s (s.raiseAbort reason word) :=
  ⟨⟨s.raiseAbort_consoleIn reason word, s.raiseAbort_consoleEnded reason word, s.raiseAbort_consoleOut reason word⟩,
    s.raiseAbort_log reason word⟩

theorem State.raiseAbort_abortedAs (s : State) (reason : AbortReason) (word : Word) :
    AbortedAs reason word s (s.raiseAbort reason word) := by
  have hrun := s.raiseAbort_run reason word
  exact ⟨hrun, s.raiseAbort_abortInfo reason word, fun r _ => s.raiseAbort_reg reason word r,
    s.raiseAbort_pc reason word, s.raiseAbort_cond reason word, fun a _ => s.raiseAbort_rawRead reason word a,
    s.raiseAbort_held reason word, s.raiseAbort_cfg reason word, s.raiseAbort_ports reason word,
    step_of_ended (.inr hrun)⟩

theorem exec_rti (low : BitVec 12) (s : State) : exec (.rti low) s = .next (s.raiseAbort .abortRti (0x8#4 ++ low)) := rfl

theorem exec_res (low : BitVec 12) (s : State) : exec (.res low) s = .next (s.raiseAbort .abortRes (0xD#4 ++ low)) := rfl

end Sys2Proof.Machine

namespace Sys2Proof
open Machine

/-- Settles O54: RTI is the abort with its own reason and word, and the abort writes nothing but RUN and the record. -/
theorem rtiAborts : Obligations.RtiAborts := fun low s => ⟨_, exec_rti low s, s.raiseAbort_abortedAs _ _⟩

/-- Settles O55: likewise for the reserved opcode. -/
theorem resAborts : Obligations.ResAborts := fun low s => ⟨_, exec_res low s, s.raiseAbort_abortedAs _ _⟩

end Sys2Proof
end

section
/-! PROOFS. The block device, the allocator and the step's fetch (spec/60_exceptions.md R263 to R289): what a store at the
doorbell comes to when it is dropped and when it is served, and which words of memory that leaves as they were. -/

namespace Sys2Proof.Machine

/-! The words that a store keeps. -/

theorem State.rawWrite_memoryKept (s : State) {a : Word} {ws : List Word} (v : Word) (h : a ∈ ws) :
    MemoryKept ws s (s.rawWrite a v) := fun _ hx => s.rawRead_rawWrite_other v (ne_of_mem_of_not_mem h hx).symm

/-! A store at the doorbell that nothing serves, and one that a request waits for (R272 to R274). -/

/-- The kick bit is clear, or no request is announced. -/
theorem State.memWrite_doorbell_plain (s : State) {v : Word} (hw : Memory.wf s.mem = true)
    (h : v.getLsbD 0 = false ∨ s.rawRead availFlagsAddr = 0#16) :
    s.memWrite s.cfg.virtioEntry v = s.rawWrite s.cfg.virtioEntry v := by
  rcases s.memWrite_doorbell_cases v hw with ⟨-, hplain⟩ | ⟨⟨hkick, havail, -⟩, -⟩ | ⟨⟨hkick, havail, -⟩, -⟩
  · exact hplain
  all_goals simp_all

/-- The announced index is out of range, or its descriptor is not allocated. -/
theorem State.memWrite_doorbell_dropped (s : State) {v : Word} (hw : Memory.wf s.mem = true)
    (hkick : v.getLsbD 0 = true) (havail : s.rawRead availFlagsAddr ≠ 0#16)
    (hdrop : nDesc ≤ (s.rawRead availIdxAddr).toNat ∨ s.rawRead (descFlagsAddr (s.rawRead availIdxAddr)) = 0#16) :
    s.memWrite s.cfg.virtioEntry v =
      ((s.rawWrite s.cfg.virtioEntry v).rawWrite availFlagsAddr 0#16).reportDropped .noAllocatedDescriptor := by
  rcases s.memWrite_doorbell_cases v hw with ⟨hplain, -⟩ | ⟨-, hdropped⟩ | ⟨⟨-, -, hidx, halloc⟩, -⟩
  · simp_all
  · exact hdropped
  · exact absurd hdrop (not_or.2 ⟨Nat.not_le.2 hidx, halloc⟩)

/-- The request record of descriptor i (R282): its buffer's address, then the words the handler reads there. -/
def RecordAt (s : State) (i a op position length : Word) : Prop :=
  s.rawRead (descAddr i) = a ∧ s.rawRead a = op ∧ s.rawRead (a + 1#16) = position ∧ s.rawRead (a + 2#16) = length

section
variable {s : State} {v i a op position length : Word}

theorem Announced.index_lt (h : Announced s v i a op position length) : i.toNat < nDesc := by
  obtain ⟨-, -, -, hidx, -⟩ := h
  exact hidx

theorem Announced.recordAt (h : Announced s v i a op position length) :
    RecordAt (s.cleared v i) i a op position length := by
  obtain ⟨-, -, -, -, -, hrecord⟩ := h
  exact hrecord

/-- An announced request is served in the cleared state. -/
theorem Announced.memWrite_eq (h : Announced s v i a op position length) (hw : Memory.wf s.mem = true) :
    s.memWrite s.cfg.virtioEntry v = (s.cleared v i).answered i s.cfg.virtioEntry := by
  obtain ⟨hkick, havail, rfl, hidx, halloc, -⟩ := h
  rcases s.memWrite_doorbell_cases v hw with ⟨hplain, -⟩ | ⟨⟨-, -, hdrop⟩, -⟩ | ⟨-, hserved⟩
  · simp_all
  · exact absurd hdrop (not_or.2 ⟨Nat.not_le.2 hidx, halloc⟩)
  · exact hserved

/-! A served request, by its operation (R275 to R277). -/

/-- What serving a request and answering the doorbell at e come to: the two operations end with the completion code, any
other is dropped. -/
theorem State.answered_eq (e : Word) (h : RecordAt s i a op position length) :
    s.answered i e =
      if op = blkRead then (s.blockRead i a position length).rawWrite e completionCode
      else if op = blkWrite then (s.blockWrite a position length).rawWrite e completionCode
      else s.reportDropped .unsupportedOperation := by
  obtain ⟨rfl, rfl, rfl, rfl⟩ := h
  simp only [State.answered, State.serve]
  split_ifs <;> rfl

theorem Announced.memWrite_read (h : Announced s v i a blkRead position length) (hw : Memory.wf s.mem = true) :
    s.memWrite s.cfg.virtioEntry v =
      ((s.cleared v i).blockRead i a position length).rawWrite s.cfg.virtioEntry completionCode := by
  rw [h.memWrite_eq hw, State.answered_eq _ h.recordAt, if_pos rfl]

theorem Announced.memWrite_write (h : Announced s v i a blkWrite position length) (hw : Memory.wf s.mem = true) :
    s.memWrite s.cfg.virtioEntry v =
      ((s.cleared v i).blockWrite a position length).rawWrite s.cfg.virtioEntry completionCode := by
  rw [h.memWrite_eq hw, State.answered_eq _ h.recordAt, if_neg (by decide), if_pos rfl]

theorem Announced.memWrite_unsupported (h : Announced s v i a op position length) (hw : Memory.wf s.mem = true)
    (hread : op ≠ blkRead) (hwrite : op ≠ blkWrite) :
    s.memWrite s.cfg.virtioEntry v = (s.cleared v i).reportDropped .unsupportedOperation := by
  rw [h.memWrite_eq hw, State.answered_eq _ h.recordAt, if_neg hread, if_neg hwrite]

end

/-! The words of a block READ (R275). -/

theorem State.blockRead_log (s : State) (i a position length : Word) : (s.blockRead i a position length).log = s.log :=
  s.synthFill_log a position length length.toNat

/-- Only the used ring and the descriptor's FLAGS are written over the fill. -/
theorem State.blockRead_memoryKept (s : State) (i a position length : Word) :
    MemoryKept [usedFlagsAddr, usedIdxAddr, descFlagsAddr i] (s.synthFill a position length length.toNat)
      (s.blockRead i a position length) :=
  ((State.rawWrite_memoryKept _ _ (by simp)).trans (State.rawWrite_memoryKept _ _ (by simp))).trans
    (State.rawWrite_memoryKept _ _ (by simp))

theorem State.blockRead_ring (s : State) {i : Word} (a position length : Word) (hw : Memory.wf s.mem = true)
    (hi : i.toNat < nDesc) :
    (s.blockRead i a position length).rawRead usedFlagsAddr = 0x0001#16 ∧
    (s.blockRead i a position length).rawRead usedIdxAddr = i ∧
    (s.blockRead i a position length).rawRead (descFlagsAddr i) = 0x0001#16 := by
  obtain ⟨-, -, -, hflags, hidx⟩ := descFlags_ne hi s.cfg
  have hfill := (s.synthFill_frame a position length length.toNat).wf hw
  have hused := State.rawWrite_wf _ usedFlagsAddr 0x0001#16 hfill
  unfold State.blockRead
  refine ⟨?flags, ?idx, State.rawRead_rawWrite_same _ _ _ (State.rawWrite_wf _ _ _ hused)⟩
  case flags =>
    rw [State.rawRead_rawWrite_other _ _ hflags.symm, State.rawRead_rawWrite_other _ _ (by decide),
      State.rawRead_rawWrite_same _ _ _ hfill]
  case idx => rw [State.rawRead_rawWrite_other _ _ hidx.symm, State.rawRead_rawWrite_same _ _ _ hused]

/-- A data word that nothing is written over is the placeholder's. -/
theorem State.blockRead_data (s : State) {i a position length : Word} {k : Nat} (hw : Memory.wf s.mem = true)
    (hk : k < length.toNat) (hx : dataAddr a k ∉ [usedFlagsAddr, usedIdxAddr, descFlagsAddr i]) :
    (s.blockRead i a position length).rawRead (dataAddr a k) =
      Config.blkSynth position length (BitVec.ofNat 16 k) :=
  (s.blockRead_memoryKept i a position length _ hx).trans
    ((s.synthFill_rawRead a position length _ length.isLt.le hw).1 k hk)

theorem State.blockRead_kept (s : State) {i a position length x : Word} (hw : Memory.wf s.mem = true)
    (hx : x ∉ [usedFlagsAddr, usedIdxAddr, descFlagsAddr i]) (hdata : ∀ k, k < length.toNat → x ≠ dataAddr a k) :
    (s.blockRead i a position length).rawRead x = s.rawRead x :=
  (s.blockRead_memoryKept i a position length _ hx).trans
    ((s.synthFill_rawRead a position length _ length.isLt.le hw).2 x hdata)

/-! The footprint of one dispatch (R289). -/

/-- Whatever its operation, serving a request writes only the doorbell at e, the used ring, the descriptor's FLAGS and the
request's data words. -/
theorem State.answered_kept {s : State} {i a op position length e x : Word} (h : RecordAt s i a op position length)
    (hw : Memory.wf s.mem = true) (hx : x ∉ [e, usedFlagsAddr, usedIdxAddr, descFlagsAddr i])
    (hdata : ∀ k, k < length.toNat → x ≠ dataAddr a k) : (s.answered i e).rawRead x = s.rawRead x := by
  obtain ⟨hxe, hx⟩ := not_or.1 (mt List.mem_cons.2 hx)
  rw [State.answered_eq e h]
  split_ifs
  case pos => rw [State.rawRead_rawWrite_other _ _ hxe, s.blockRead_kept hw hx hdata]
  case pos => rw [State.rawRead_rawWrite_other _ _ hxe, State.blockWrite, State.report_rawRead]
  case neg => rw [State.reportDropped_rawRead]

/-- The same of a store at the doorbell, which clears AVAIL_FLAGS and the descriptor's FLAGS before it serves. -/
theorem State.memWrite_doorbell_kept (s : State) (v : Word) {i a op position length x : Word}
    (hw : Memory.wf s.mem = true) (hi : s.rawRead availIdxAddr = i)
    (hrecord : RecordAt (s.cleared v i) i a op position length)
    (hx : x ∉ [s.cfg.virtioEntry, availFlagsAddr, usedFlagsAddr, usedIdxAddr, descFlagsAddr i])
    (hdata : ∀ k, k < length.toNat → x ≠ dataAddr a k) :
    (s.memWrite s.cfg.virtioEntry v).rawRead x = s.rawRead x := by
  subst hi
  simp only [List.mem_cons, List.not_mem_nil, or_false, not_or] at hx
  obtain ⟨hdoorbell, havail, hflags, hidx, hdesc⟩ := hx
  rcases s.memWrite_doorbell_cases v hw with ⟨-, hplain⟩ | ⟨-, hdropped⟩ | ⟨⟨-, -, hi, -⟩, hserved⟩
  · rw [hplain, State.rawRead_rawWrite_other _ _ hdoorbell]
  · rw [hdropped, State.reportDropped_rawRead, State.rawRead_rawWrite_other _ _ havail,
      State.rawRead_rawWrite_other _ _ hdoorbell]
  · obtain ⟨-, -, -, hkept⟩ := s.cleared_rawRead v hw hi
    rw [hserved, State.answered_kept hrecord ((s.cleared_frame v _).wf hw) (by simp [*]) hdata,
      hkept x (by simp [*])]

/-! The model's own load. -/

/-- The word that withFetchWord places is the table word itself (log entry 17). -/
theorem State.withFetchWord_rawRead_pc (s : State) (w : Word) (hw : Memory.wf s.mem = true) :
    (s.withFetchWord 16 w.toNat).rawRead s.pc = w := by
  refine (s.rawRead_rawWrite_same s.pc _ hw).trans ?_
  rw [Nat.mod_eq_of_lt w.isLt, BitVec.ofNat_toNat, BitVec.setWidth_eq]

end Sys2Proof.Machine

namespace Sys2Proof
open Machine

/-- Settles O40: off the doorbell a store's frame is that of a raw write, in the window as elsewhere. -/
theorem otherWindowStoresArePlain : Obligations.OtherWindowStoresArePlain := by
  intro s a v hw _ _ hne
  obtain ⟨hregs, hpc, hcond, hcontrol, hconsole, hplain, -⟩ := s.memWrite_stored a v hw
  obtain ⟨hvalue, hmem, hlog⟩ := hplain hne
  exact ⟨hvalue, hmem, hregs, hpc, hcond, hcontrol, hconsole, hlog⟩

/-- Settles O41: the store's own frame, then the plain store, the consumed announcement and the cleared state, each as
the doorbell's cases leave it. -/
theorem droppedKicks : Obligations.DroppedKicks := by
  intro s v hw e t i
  obtain ⟨hregs, hpc, hcond, hcontrol, hconsole, -, -⟩ := s.memWrite_stored e v hw
  refine ⟨hregs, hpc, hcond, hcontrol, hconsole, fun hkick => s.memWrite_doorbell_plain hw (.inl hkick),
    fun _ havail => s.memWrite_doorbell_plain hw (.inr havail), fun hkick havail hdrop => ?dropped,
    fun a op position length hann hread hwrite => ?unsupported⟩
  case dropped =>
    have ht : t = _ := s.memWrite_doorbell_dropped hw hkick havail hdrop
    rw [ht]
    refine ⟨?kept, ?doorbell, State.rawRead_rawWrite_same _ _ _ (s.rawWrite_wf _ _ hw), rfl⟩
    case kept => exact (s.rawWrite_memoryKept v List.mem_cons_self).trans (State.rawWrite_memoryKept _ _ (by simp))
    case doorbell =>
      exact (State.rawRead_rawWrite_other _ _ (header_ne_doorbell s.cfg).1.symm).trans
        (s.rawRead_rawWrite_same _ _ hw)
  case unsupported =>
    obtain ⟨hdoorbell, havail, hdesc, hkept⟩ := s.cleared_rawRead v hw hann.index_lt
    have ht : t = _ := hann.memWrite_unsupported hw hread hwrite
    rw [ht]
    exact ⟨hkept, hdoorbell, havail, hdesc, rfl⟩

/-- Settles O42: the words a block READ leaves in the cleared state, under the completion code at the doorbell, which
none of the ring's words is. -/
theorem blockReadOutcome : Obligations.BlockReadOutcome := by
  intro s v i a position length hw hann e t
  have hwc : Memory.wf (s.cleared v i).mem = true := (s.cleared_frame v i).wf hw
  have ht : t = ((s.cleared v i).blockRead i a position length).rawWrite e completionCode := hann.memWrite_read hw
  have hother (x : Word) (hx : x ≠ e) : t.rawRead x = ((s.cleared v i).blockRead i a position length).rawRead x := by
    rw [ht, State.rawRead_rawWrite_other _ _ hx]
  obtain ⟨havail_ne, -, hflags_ne, hidx_ne⟩ := header_ne_doorbell s.cfg
  obtain ⟨hdesc_ne, hdesc_avail, -⟩ := descFlags_ne hann.index_lt s.cfg
  obtain ⟨hflags, hidx, hdesc⟩ := (s.cleared v i).blockRead_ring a position length hwc hann.index_lt
  obtain ⟨-, havail, -, -⟩ := s.cleared_rawRead v hw hann.index_lt
  refine ⟨(hother _ hflags_ne).trans hflags, (hother _ hidx_ne).trans hidx, (hother _ hdesc_ne).trans hdesc, ?doorbell,
    ?log, fun k hk hx => ?data, fun hdata => ?avail, fun x hx hdata => ?kept⟩
  case doorbell =>
    rw [ht]
    exact State.rawRead_rawWrite_same _ _ _ ((State.blockRead_frame ..).wf hwc)
  case log =>
    rw [ht]
    exact (s.cleared v i).blockRead_log i a position length
  case data =>
    simp only [List.mem_cons, List.not_mem_nil, or_false, not_or] at hx
    obtain ⟨hx1, hx2, hx3, hxe⟩ := hx
    rw [hother _ hxe, State.blockRead_data _ hwc hk (by simp [*])]
  case avail =>
    have hx : availFlagsAddr ∉ [usedFlagsAddr, usedIdxAddr, descFlagsAddr i] := by
      simpa [hdesc_avail.symm] using (by decide : availFlagsAddr ≠ usedFlagsAddr ∧ availFlagsAddr ≠ usedIdxAddr)
    rw [hother _ havail_ne, State.blockRead_kept _ hwc hx fun k hk => (hdata k hk).symm, havail]
  case kept =>
    have hrecord := hann.recordAt
    obtain ⟨-, -, hi, -⟩ := hann
    exact s.memWrite_doorbell_kept v hw hi hrecord hx hdata

/-- Settles O43: a block WRITE is a report in the cleared state, under the completion code at the doorbell. -/
theorem blockWriteOutcome : Obligations.BlockWriteOutcome := by
  intro s v i a position length hw hann e t
  have ht : t = ((s.cleared v i).blockWrite a position length).rawWrite e completionCode := hann.memWrite_write hw
  obtain ⟨hdesc_ne, -⟩ := descFlags_ne hann.index_lt s.cfg
  obtain ⟨-, havail, hdesc, hkept⟩ := s.cleared_rawRead v hw hann.index_lt
  rw [ht]
  refine ⟨State.rawRead_rawWrite_same _ _ _ ((s.cleared_frame v i).wf hw), ?avail, ?desc, ?kept, rfl⟩
  case avail => exact (State.rawRead_rawWrite_other _ _ (header_ne_doorbell s.cfg).1).trans havail
  case desc => exact (State.rawRead_rawWrite_other _ _ hdesc_ne).trans hdesc
  case kept => exact hkept.trans (State.rawWrite_memoryKept _ _ List.mem_cons_self)

/-- Settles O44: the words that a store at the doorbell keeps, for the record the handler would read, and the store's own
frame. -/
theorem dispatchFootprint : Obligations.DispatchFootprint := by
  intro s v hw e i a length
  obtain ⟨hregs, hpc, hcond, hcontrol, hconsole, -, -⟩ := s.memWrite_stored e v hw
  exact ⟨fun x hx hdata => s.memWrite_doorbell_kept v hw rfl ⟨rfl, rfl, rfl, rfl⟩ hx hdata, hregs, hpc, hcond, hcontrol,
    hconsole⟩

/-- Settles O45, from the frame of a block WRITE and the data words of a block READ. -/
theorem storageIsPlaceholder : Obligations.StorageIsPlaceholder := by
  intro s u v v' i j a b position length hws hwu hwrite hread
  obtain ⟨-, -, -, hkept, -⟩ := blockWriteOutcome s v i a position length hws hwrite
  obtain ⟨-, -, -, -, -, hdata, -⟩ := blockReadOutcome u v' j b position length hwu hread
  exact ⟨hkept, hdata⟩

/-- Settles O60: the search runs through the indices in order. -/
theorem findEmptyIsLowestFree : Obligations.FindEmptyIsLowestFree := by
  intro s
  refine ⟨fun i => ?lowest, ?none⟩
  case lowest =>
    rw [State.findEmpty, List.find?_range_eq_some]
    simp only [List.mem_range, nDesc, decide_eq_true_eq, Bool.not_eq_true', decide_eq_false_iff_not]
    exact and_left_comm
  case none =>
    rw [State.findEmpty, List.find?_eq_none]
    simp only [List.mem_range, nDesc, decide_eq_true_eq, ne_eq]

/-- Settles O8: the step runs the instruction fetched, and away from KBSR_ADDR the fetch is a plain read. -/
theorem stepRunsDecodedInstruction : Obligations.StepRunsDecodedInstruction := by
  intro s i hrun hheld hdec
  refine ⟨step_of_decode hrun hheld hdec, fun hpc => ?plain⟩
  case plain =>
    have hread := s.memRead_plain hpc
    rw [hread] at hdec ⊢
    exact ⟨rfl, step_of_decode_plain hrun hheld hpc hdec⟩

/-- Settles O10: the placed state runs, is not held, and holds the word at PC; placing it is one raw write. -/
theorem placedWordRunsNext : Obligations.PlacedWordRunsNext := by
  intro s w i hw hpc hdec
  refine ⟨step_of_decode_plain rfl rfl hpc ?word, fun _ _ => rfl, s.rawWrite_memoryKept _ (by simp)⟩
  case word => rwa [← s.withFetchWord_rawRead_pc w hw] at hdec

end Sys2Proof
end

section
/-! PROOFS. Hazards and the image load (spec/70_reset_and_hazards.md R345, R346, R350): what the fetch after a store to
the next instruction's address reads, and which words of memory the load places and keeps. -/

namespace Sys2Proof.Machine

/-! A store to the next instruction's address (R350). -/

theorem kbsrAddr_ne_doorbell (c : Config) : kbsrAddr ≠ c.virtioEntry := doorbell_ne c (by decide)

/-- Off the doorbell the fetch finds the stored word itself, at the doorbell what the dispatch leaves there, and at
KBSR_ADDR, where the store dispatches nothing, what its own poll leaves. -/
theorem State.memWrite_pc_fetchedNext (s : State) (v : Word) (hw : Memory.wf s.mem = true) :
    FetchedNext v s (s.memWrite s.pc v) := by
  have hframe := s.memWrite_frame s.pc v
  refine ⟨hframe.pc, fun hdoorbell hkbsr => ?plain, fun hdoorbell => ?doorbell, fun hkbsr => ?kbsr⟩
  case plain =>
    have hword : (s.memWrite s.pc v).rawRead (s.memWrite s.pc v).pc = v := by
      rw [hframe.pc, s.memWrite_plain v hdoorbell, s.rawRead_rawWrite_same _ _ hw]
    have hkbsr' : (s.memWrite s.pc v).pc ≠ kbsrAddr := by rwa [hframe.pc]
    refine ⟨by rw [State.fetch_plain _ hkbsr', hword], fun hrun hheld i hdec => ?step⟩
    case step =>
      rw [step_of_decode_plain (hframe.run.trans hrun) (hframe.held.trans hheld) hkbsr' (hword.symm ▸ hdec),
        hframe.pc]
  case doorbell =>
    have hkbsr : (s.memWrite s.pc v).pc ≠ kbsrAddr := by
      rw [hframe.pc, hdoorbell]
      exact (kbsrAddr_ne_doorbell s.cfg).symm
    rw [State.fetch_plain _ hkbsr, hframe.pc, hdoorbell, s.memWrite_doorbell]
  case kbsr =>
    rw [State.fetch, hframe.pc, hkbsr, s.memWrite_plain v (kbsrAddr_ne_doorbell s.cfg)]

/-! The words of an image (R345, R346). -/

theorem imageWords_length : ∀ bytes : List Byte, (imageWords bytes).length = bytes.length / 2
  | [] | [_] => by simp [imageWords]
  | _ :: _ :: rest => by
    rw [imageWords, List.length_cons, imageWords_length rest, List.length_cons, List.length_cons]
    omega

/-- Word k of an image is its bytes 2k and 2k + 1, the high byte first. -/
theorem imageWords_getElem? {bytes : List Byte} {k : Nat} {hi lo : Byte} (hhi : bytes[2 * k]? = some hi)
    (hlo : bytes[2 * k + 1]? = some lo) : (imageWords bytes)[k]? = some (hi ++ lo) := by
  induction k generalizing bytes with
  | zero =>
    match bytes with
    | [] | [_] => simp at hlo
    | _ :: _ :: _ =>
      cases hhi
      cases hlo
      rfl
  | succ k ih =>
    match bytes with
    | [] | [_] => simp at hlo
    | _ :: _ :: _ => exact ih hhi hlo

/-! The load loop (R345). -/

/-- Below the ceiling the loop writes its first word and goes on after it. -/
theorem State.loadWords_cons (s : State) {a : Nat} (w : Word) (ws : List Word) (ha : a < 65536) :
    s.loadWords a (w :: ws) = (s.rawWrite (BitVec.ofNat 16 a) w).loadWords (a + 1) ws := if_neg (by omega)

/-- Above the ceiling the loop stops. -/
theorem State.loadWords_above (s : State) {a : Nat} (ws : List Word) (ha : 65536 ≤ a) : s.loadWords a ws = s := by
  cases ws with
  | nil => rfl
  | cons w ws => exact if_pos (by omega)

/-- The loop changes memory alone: its writes are raw, so that nothing is dispatched. -/
theorem State.loadWords_frame (s : State) (a : Nat) (ws : List Word) :
    StoreFrame s (s.loadWords a ws) ∧ (s.loadWords a ws).log = s.log := by
  induction ws generalizing s a with
  | nil => exact ⟨.refl s, rfl⟩
  | cons w ws ih =>
    rcases Nat.lt_or_ge a 65536 with ha | ha
    · rw [s.loadWords_cons w ws ha]
      obtain ⟨hframe, hlog⟩ := ih (s.rawWrite (BitVec.ofNat 16 a) w) (a + 1)
      exact ⟨(s.rawWrite_frame ..).trans hframe, hlog⟩
    · rw [s.loadWords_above _ ha]
      exact ⟨.refl s, rfl⟩

/-- A word below the first address, or past the last word, is kept. -/
theorem State.loadWords_kept (s : State) {a : Nat} {ws : List Word} {x : Word}
    (hx : x.toNat < a ∨ a + ws.length ≤ x.toNat) : (s.loadWords a ws).rawRead x = s.rawRead x := by
  induction ws generalizing s a with
  | nil => rfl
  | cons w ws ih =>
    rcases Nat.lt_or_ge a 65536 with ha | ha
    · rw [List.length_cons] at hx
      have hne : x ≠ BitVec.ofNat 16 a := ne_of_toNat (by rw [BitVec.toNat_ofNat]; omega)
      rw [s.loadWords_cons w ws ha, ih _ (by omega), s.rawRead_rawWrite_other w hne]
    · rw [s.loadWords_above _ ha]

/-- Word k is at its address, if that is below the ceiling: the words after it are written further up. -/
theorem State.loadWords_placed {s : State} {a k : Nat} {ws : List Word} {w : Word} (hw : Memory.wf s.mem = true)
    (hk : ws[k]? = some w) (hak : a + k < 65536) : (s.loadWords a ws).rawRead (BitVec.ofNat 16 (a + k)) = w := by
  induction ws generalizing s a k with
  | nil => simp at hk
  | cons w' ws ih =>
    rw [s.loadWords_cons w' ws (by omega)]
    cases k with
    | zero =>
      cases hk
      have hbelow : (BitVec.ofNat 16 a).toNat < a + 1 := by rw [BitVec.toNat_ofNat]; omega
      exact (State.loadWords_kept _ (.inl hbelow)).trans (s.rawRead_rawWrite_same _ w hw)
    | succ k =>
      have hnext := ih (s := s.rawWrite (BitVec.ofNat 16 a) w') (a := a + 1) (s.rawWrite_wf _ w' hw) hk (by omega)
      rwa [show a + 1 + k = a + (k + 1) by omega] at hnext

/-! The load as a whole, by the length of the image and the hold (R346, R51). -/

theorem State.loadImage_of_not_held {s : State} (hheld : s.held = none) (o1 o2 : Byte) (bytes : List Byte) :
    s.loadImage (o1 :: o2 :: bytes) = some (s.loadWords (o1 ++ o2 : Word).toNat (imageWords bytes)) :=
  State.between_of_not_held hheld _

/-- Between steps only the lack of an origin fails the load. -/
theorem State.loadImage_eq_none_iff {s : State} (hheld : s.held = none) (image : List Byte) :
    s.loadImage image = none ↔ image.length < 2 := by
  match image with
  | [] | [_] => exact iff_of_true rfl (by simp)
  | o1 :: o2 :: bytes =>
    rw [State.loadImage_of_not_held hheld]
    simp

theorem State.loadImage_of_held {s : State} (hheld : s.held ≠ none) (image : List Byte) :
    s.loadImage image = none := by
  match image with
  | [] | [_] => rfl
  | o1 :: o2 :: bytes => exact State.between_of_held hheld _

end Sys2Proof.Machine

namespace Sys2Proof
open Machine

/-- Settles O9: each store form is one store at PC, for STI in the state that the pointer's read leaves. -/
theorem storedWordIsFetchedNext : Obligations.StoredWordIsFetchedNext := by
  intro s sr base off hw
  refine ⟨fun hea => ⟨_, rfl, ?st⟩, fun hea => ⟨_, rfl, ?sti⟩, fun hea => ⟨_, rfl, ?str⟩⟩
  case st =>
    rw [hea]
    exact s.memWrite_pc_fetchedNext _ hw
  case sti =>
    have hread := s.memRead_frame (s.pcRel off)
    have hpc : (s.indirect off).2.pc = s.pc := hread.pc
    rw [hea, ← hpc]
    exact (s.indirect off).2.memWrite_pc_fetchedNext _ (hread.wf hw)
  case str =>
    rw [hea]
    exact s.memWrite_pc_fetchedNext _ hw

/-- Settles O59: the load is the loop over the image's words, which writes memory alone. -/
theorem imageLoadPlacesWords : Obligations.ImageLoadPlacesWords := by
  refine ⟨fun s o1 o2 bytes hw hheld => ?loads, fun s image hheld => State.loadImage_eq_none_iff hheld image,
    fun s image hheld => State.loadImage_of_held hheld image⟩
  case loads =>
    obtain ⟨hframe, hlog⟩ := s.loadWords_frame (o1 ++ o2 : Word).toNat (imageWords bytes)
    refine ⟨_, State.loadImage_of_not_held hheld o1 o2 bytes, fun k hi lo hhi hlo hceiling => ?placed,
      fun x hx => ?kept, fun r _ => hframe.reg r, hframe.pc, hframe.cond,
      ⟨hframe.run, hframe.abortInfo, hframe.held, hframe.cfg⟩, ⟨hframe.consoleIn, hframe.consoleEnded, hframe.consoleOut⟩,
      hlog⟩
    case placed =>
      have hword := State.loadWords_placed hw (imageWords_getElem? hhi hlo) hceiling
      rwa [BitVec.ofNat_add, BitVec.ofNat_toNat, BitVec.setWidth_eq] at hword
    case kept => exact s.loadWords_kept (by rwa [imageWords_length])

end Sys2Proof
end
